-- ==== Sys2Proof/Word.lean ====
section
/-! DEFINITION. The word types of the block: bytes, 16-bit words, register indices and key codes
(spec/00_scope.md R6, spec/10_state.md R9, R11, R18). -/

namespace Sys2Proof

/-- One memory byte, one general register, one timer (R9, R15, R29). -/
abbrev Byte := BitVec 8

/-- One 16-bit quantity: `I`, `PC`, a stack entry, an instruction word (R11, R12, R13, R49). -/
abbrev Word := BitVec 16

/-- The index of a general register `V0`..`VF` (R9). -/
abbrev Reg := Fin 16

/-- A key code 0..15 (R18). -/
abbrev KeyCode := Fin 16

/-- `VF`, the register that doubles as the flag register (R10). -/
abbrev vf : Reg := 15

end Sys2Proof
end

