-- ==== Sys2Proof/Syntax.lean ====
section
/-! DEFINITION. The 34 instructions of spec/30_encoding.md R55, one constructor per row of
spec/opcode_table.json, in the table's order. Register fields are 4-bit indices, immediates are bit
vectors of the field's width (R50), so every term is encodable. -/

namespace Sys2Proof

inductive Instr where
  /-- `CLS`, 00E0 (R63). -/
  | cls
  /-- `RET`, 00EE (R65). -/
  | ret
  /-- `JP nnn`, 1nnn (R66). -/
  | jp (nnn : BitVec 12)
  /-- `CALL nnn`, 2nnn (R67). -/
  | call (nnn : BitVec 12)
  /-- `SE Vx, nn`, 3xnn (R68). -/
  | seImm (x : Reg) (nn : Byte)
  /-- `SNE Vx, nn`, 4xnn (R69). -/
  | sneImm (x : Reg) (nn : Byte)
  /-- `SE Vx, Vy`, 5xy0 (R70). -/
  | seReg (x y : Reg)
  /-- `SNE Vx, Vy`, 9xy0 (R71). -/
  | sneReg (x y : Reg)
  /-- `LD Vx, nn`, 6xnn (R75). -/
  | ldImm (x : Reg) (nn : Byte)
  /-- `ADD Vx, nn`, 7xnn (R76). -/
  | addImm (x : Reg) (nn : Byte)
  /-- `LD Vx, Vy`, 8xy0 (R77). -/
  | ldReg (x y : Reg)
  /-- `OR Vx, Vy`, 8xy1 (R78). -/
  | orReg (x y : Reg)
  /-- `AND Vx, Vy`, 8xy2 (R79). -/
  | andReg (x y : Reg)
  /-- `XOR Vx, Vy`, 8xy3 (R80). -/
  | xorReg (x y : Reg)
  /-- `ADD Vx, Vy`, 8xy4 (R81). -/
  | addReg (x y : Reg)
  /-- `SUB Vx, Vy`, 8xy5 (R82). -/
  | sub (x y : Reg)
  /-- `SHR Vx`, 8xy6; `y` is decoded and not used (R83). -/
  | shr (x y : Reg)
  /-- `SUBN Vx, Vy`, 8xy7 (R84). -/
  | subn (x y : Reg)
  /-- `SHL Vx`, 8xyE; `y` is decoded and not used (R85). -/
  | shl (x y : Reg)
  /-- `LD I, nnn`, Annn (R87). -/
  | ldI (nnn : BitVec 12)
  /-- `JP V0, nnn`, Bnnn (R72). -/
  | jpV0 (nnn : BitVec 12)
  /-- `RND Vx, nn`, Cxnn (R86). -/
  | rnd (x : Reg) (nn : Byte)
  /-- `DRW Vx, Vy, n`, Dxyn (R64). -/
  | drw (x y : Reg) (n : BitVec 4)
  /-- `SKP Vx`, Ex9E (R93). -/
  | skp (x : Reg)
  /-- `SKNP Vx`, ExA1 (R94). -/
  | sknp (x : Reg)
  /-- `LD Vx, K`, Fx0A (R95). -/
  | ldKey (x : Reg)
  /-- `LD Vx, DT`, Fx07 (R97). -/
  | ldFromDt (x : Reg)
  /-- `LD DT, Vx`, Fx15 (R98). -/
  | ldDt (x : Reg)
  /-- `LD ST, Vx`, Fx18 (R99). -/
  | ldSt (x : Reg)
  /-- `ADD I, Vx`, Fx1E (R88). -/
  | addI (x : Reg)
  /-- `LD F, Vx`, Fx29 (R89). -/
  | ldFont (x : Reg)
  /-- `LD B, Vx`, Fx33 (R90). -/
  | ldBcd (x : Reg)
  /-- `LD [I], Vx`, Fx55 (R91). -/
  | storeRegs (x : Reg)
  /-- `LD Vx, [I]`, Fx65 (R92). -/
  | loadRegs (x : Reg)
  deriving DecidableEq, Repr

end Sys2Proof
end

