-- ==== Sys2Proof/Decode.lean ====
section
/-! DEFINITION. The decoder of spec/30_encoding.md R49 to R59: total on any word and any bytes,
rejecting by name; and the encoder, written from the same patterns (R51, R55). -/

namespace Sys2Proof

/-- Why bytes are no instruction. -/
inductive DecodeError where
  /-- The word matches no row of the opcode map (R57). -/
  | unknownOpcode (w : Word)
  /-- Fewer than the 2 bytes of an instruction are left (R59). -/
  | truncated
  deriving DecidableEq, Repr

/-- The two bytes of an instruction in fetch order make its word, the first byte being bits 15:8
(R41, R49). -/
def wordOfBytes (hi lo : Byte) : Word := hi ++ lo

/-- The byte of a word that stands at `PC`: bits 15:8 (R41). -/
def firstByte (w : Word) : Byte := w.extractLsb' 8 8

/-- The byte of a word that stands at `PC + 1`: bits 7:0 (R41). -/
def secondByte (w : Word) : Byte := w.extractLsb' 0 8

/-- Field `op`, bits 15:12 (R50). -/
def opField (w : Word) : BitVec 4 := w.extractLsb' 12 4

/-- Field `x`, bits 11:8, a register index (R50). -/
def xField (w : Word) : Reg := (w.extractLsb' 8 4).toFin

/-- Field `y`, bits 7:4, a register index (R50). -/
def yField (w : Word) : Reg := (w.extractLsb' 4 4).toFin

/-- Field `n`, bits 3:0 (R50). -/
def nField (w : Word) : BitVec 4 := w.extractLsb' 0 4

/-- Field `nn`, bits 7:0 (R50). -/
def nnField (w : Word) : Byte := w.extractLsb' 0 8

/-- Field `nnn`, bits 11:0 (R50). -/
def nnnField (w : Word) : BitVec 12 := w.extractLsb' 0 12

/-- Major opcode 0 holds only the two words 00E0 and 00EE (R56). -/
def decodeMajor0 (w : Word) : Except DecodeError Instr :=
  if w = 0x00E0#16 then .ok .cls
  else if w = 0x00EE#16 then .ok .ret
  else .error (.unknownOpcode w)

/-- Major opcode 8: the sub-operation is `n` (R55, R56). -/
def decodeMajor8 (w : Word) : Except DecodeError Instr :=
  match nField w with
  | 0x0#4 => .ok (.ldReg (xField w) (yField w))
  | 0x1#4 => .ok (.orReg (xField w) (yField w))
  | 0x2#4 => .ok (.andReg (xField w) (yField w))
  | 0x3#4 => .ok (.xorReg (xField w) (yField w))
  | 0x4#4 => .ok (.addReg (xField w) (yField w))
  | 0x5#4 => .ok (.sub (xField w) (yField w))
  | 0x6#4 => .ok (.shr (xField w) (yField w))
  | 0x7#4 => .ok (.subn (xField w) (yField w))
  | 0xE#4 => .ok (.shl (xField w) (yField w))
  | _ => .error (.unknownOpcode w)

/-- Major opcode E: the sub-operation is `nn` (R55, R56). -/
def decodeMajorE (w : Word) : Except DecodeError Instr :=
  match nnField w with
  | 0x9E#8 => .ok (.skp (xField w))
  | 0xA1#8 => .ok (.sknp (xField w))
  | _ => .error (.unknownOpcode w)

/-- Major opcode F: the sub-operation is `nn` (R55, R56). -/
def decodeMajorF (w : Word) : Except DecodeError Instr :=
  match nnField w with
  | 0x07#8 => .ok (.ldFromDt (xField w))
  | 0x0A#8 => .ok (.ldKey (xField w))
  | 0x15#8 => .ok (.ldDt (xField w))
  | 0x18#8 => .ok (.ldSt (xField w))
  | 0x1E#8 => .ok (.addI (xField w))
  | 0x29#8 => .ok (.ldFont (xField w))
  | 0x33#8 => .ok (.ldBcd (xField w))
  | 0x55#8 => .ok (.storeRegs (xField w))
  | 0x65#8 => .ok (.loadRegs (xField w))
  | _ => .error (.unknownOpcode w)

/-- `Decode(w)` of R55: every fixed bit of a pattern is matched (R56), every other word is unknown
(R57). -/
def decode (w : Word) : Except DecodeError Instr :=
  match opField w with
  | 0x0#4 => decodeMajor0 w
  | 0x1#4 => .ok (.jp (nnnField w))
  | 0x2#4 => .ok (.call (nnnField w))
  | 0x3#4 => .ok (.seImm (xField w) (nnField w))
  | 0x4#4 => .ok (.sneImm (xField w) (nnField w))
  | 0x5#4 => if nField w = 0x0#4 then .ok (.seReg (xField w) (yField w)) else .error (.unknownOpcode w)
  | 0x6#4 => .ok (.ldImm (xField w) (nnField w))
  | 0x7#4 => .ok (.addImm (xField w) (nnField w))
  | 0x8#4 => decodeMajor8 w
  | 0x9#4 => if nField w = 0x0#4 then .ok (.sneReg (xField w) (yField w)) else .error (.unknownOpcode w)
  | 0xA#4 => .ok (.ldI (nnnField w))
  | 0xB#4 => .ok (.jpV0 (nnnField w))
  | 0xC#4 => .ok (.rnd (xField w) (nnField w))
  | 0xD#4 => .ok (.drw (xField w) (yField w) (nField w))
  | 0xE#4 => decodeMajorE w
  | 0xF#4 => decodeMajorF w
  | _ => .error (.unknownOpcode w)

/-- Decoding from a byte sequence in fetch order: one instruction takes exactly 2 bytes (R49, R59),
and the rest is handed back. -/
def decodeBytes : List Byte → Except DecodeError (Instr × List Byte)
  | hi :: lo :: rest =>
    match decode (wordOfBytes hi lo) with
    | .ok i => .ok (i, rest)
    | .error e => .error e
  | _ => .error .truncated

/-- A register index as the 4 bits of its field (R50). -/
def regBits (x : Reg) : BitVec 4 := BitVec.ofFin x

/-- The layout `oooo nnnnnnnnnnnn` (R51). -/
def wordNNN (op : BitVec 4) (nnn : BitVec 12) : Word := op ++ nnn

/-- The layout `oooo xxxx nnnnnnnn` (R51), also that of format `X` with `nn` the sub-operation. -/
def wordXNN (op : BitVec 4) (x : Reg) (nn : Byte) : Word := op ++ regBits x ++ nn

/-- The layout `oooo xxxx yyyy nnnn` (R51), also that of format `XY` with `n` the sub-operation. -/
def wordXYN (op : BitVec 4) (x y : Reg) (n : BitVec 4) : Word :=
  op ++ regBits x ++ regBits y ++ n

/-- The word of an instruction (R51, R55). -/
def encode : Instr → Word
  | .cls => 0x00E0#16
  | .ret => 0x00EE#16
  | .jp nnn => wordNNN 0x1#4 nnn
  | .call nnn => wordNNN 0x2#4 nnn
  | .seImm x nn => wordXNN 0x3#4 x nn
  | .sneImm x nn => wordXNN 0x4#4 x nn
  | .seReg x y => wordXYN 0x5#4 x y 0x0#4
  | .sneReg x y => wordXYN 0x9#4 x y 0x0#4
  | .ldImm x nn => wordXNN 0x6#4 x nn
  | .addImm x nn => wordXNN 0x7#4 x nn
  | .ldReg x y => wordXYN 0x8#4 x y 0x0#4
  | .orReg x y => wordXYN 0x8#4 x y 0x1#4
  | .andReg x y => wordXYN 0x8#4 x y 0x2#4
  | .xorReg x y => wordXYN 0x8#4 x y 0x3#4
  | .addReg x y => wordXYN 0x8#4 x y 0x4#4
  | .sub x y => wordXYN 0x8#4 x y 0x5#4
  | .shr x y => wordXYN 0x8#4 x y 0x6#4
  | .subn x y => wordXYN 0x8#4 x y 0x7#4
  | .shl x y => wordXYN 0x8#4 x y 0xE#4
  | .ldI nnn => wordNNN 0xA#4 nnn
  | .jpV0 nnn => wordNNN 0xB#4 nnn
  | .rnd x nn => wordXNN 0xC#4 x nn
  | .drw x y n => wordXYN 0xD#4 x y n
  | .skp x => wordXNN 0xE#4 x 0x9E#8
  | .sknp x => wordXNN 0xE#4 x 0xA1#8
  | .ldKey x => wordXNN 0xF#4 x 0x0A#8
  | .ldFromDt x => wordXNN 0xF#4 x 0x07#8
  | .ldDt x => wordXNN 0xF#4 x 0x15#8
  | .ldSt x => wordXNN 0xF#4 x 0x18#8
  | .addI x => wordXNN 0xF#4 x 0x1E#8
  | .ldFont x => wordXNN 0xF#4 x 0x29#8
  | .ldBcd x => wordXNN 0xF#4 x 0x33#8
  | .storeRegs x => wordXNN 0xF#4 x 0x55#8
  | .loadRegs x => wordXNN 0xF#4 x 0x65#8

/-- The bytes of an instruction, in the order they stand in memory (R41). -/
def encodeBytes (i : Instr) : List Byte := [firstByte (encode i), secondByte (encode i)]

/-- The `match` and `mask` of each row of spec/opcode_table.json, in the table's order: a word is the
row's instruction exactly when `word AND mask = match` (R55, R56). The decoder does not read it. -/
def opcodeRows : List (Word × Word) :=
  [(0x00E0#16, 0xFFFF#16), (0x00EE#16, 0xFFFF#16), (0x1000#16, 0xF000#16), (0x2000#16, 0xF000#16),
   (0x3000#16, 0xF000#16), (0x4000#16, 0xF000#16), (0x5000#16, 0xF00F#16), (0x9000#16, 0xF00F#16)] ++
  [(0x6000#16, 0xF000#16), (0x7000#16, 0xF000#16), (0x8000#16, 0xF00F#16), (0x8001#16, 0xF00F#16),
   (0x8002#16, 0xF00F#16), (0x8003#16, 0xF00F#16), (0x8004#16, 0xF00F#16), (0x8005#16, 0xF00F#16),
   (0x8006#16, 0xF00F#16), (0x8007#16, 0xF00F#16), (0x800E#16, 0xF00F#16)] ++
  [(0xA000#16, 0xF000#16), (0xB000#16, 0xF000#16), (0xC000#16, 0xF000#16), (0xD000#16, 0xF000#16)] ++
  [(0xE09E#16, 0xF0FF#16), (0xE0A1#16, 0xF0FF#16), (0xF00A#16, 0xF0FF#16), (0xF007#16, 0xF0FF#16),
   (0xF015#16, 0xF0FF#16), (0xF018#16, 0xF0FF#16), (0xF01E#16, 0xF0FF#16), (0xF029#16, 0xF0FF#16),
   (0xF033#16, 0xF0FF#16), (0xF055#16, 0xF0FF#16), (0xF065#16, 0xF0FF#16)]

/-- The word whose bits are `w`, the bits above `nbits` zero. -/
def tableWord (nbits w : Nat) : Word := BitVec.ofNat 16 (w % 2 ^ nbits)

/-- The instruction the decoder reads from the word `w` of an opcode-table row: its bytes are laid out
as memory holds them, the byte of bits 15:8 first (R41). -/
def decodeTableWord (nbits w : Nat) : Option Instr :=
  match decodeBytes [firstByte (tableWord nbits w), secondByte (tableWord nbits w)] with
  | .ok (i, _) => some i
  | .error _ => none

end Sys2Proof
end

