-- ==== Sys2Proof/Config.lean ====
section
/-! DEFINITION. What the spec fixes for the machine, what it leaves as a parameter of the model, and
the free values (spec/00_scope.md R5, spec/10_state.md R21). The parameters' values at reset stand in
Machine/Params.lean. -/

namespace Sys2Proof

/-- `MEM_SIZE` (R5, R29). -/
abbrev memSize : Nat := 4096

/-- `PROG_BASE` (R5, R32). -/
abbrev progBase : Nat := 0x200

/-- `STACK_DEPTH` (R5, R13). -/
abbrev stackDepth : Nat := 16

/-- The largest image `Load` accepts: 4096 - 0x200 = 3584 bytes (R119). -/
abbrev maxImage : Nat := memSize - progBase

/-- The 16 glyphs of 5 bytes each (R5, R37). -/
abbrev fontSize : Nat := 80

/-- `KEY_INDEX_POLICY`: what `SKP` and `SKNP` do with a key value above 15 (R5, R93; D17). -/
inductive KeyIndexPolicy where
  | halt
  | lowNibble
  deriving DecidableEq, Repr

/-- `FONT_DIGIT_POLICY`: which part of `Vx` is the digit of `LD F, Vx` (R5, R89; D18). -/
inductive FontDigitPolicy where
  | lowNibble
  | fullByte
  deriving DecidableEq, Repr

/-- The parameters of R5 that are arguments of the model. They are plain data held in State, so every
statement over all states holds for all their values. -/
structure Params where
  /-- `FONT_BASE`; R5 asks `FONT_BASE + 80 <= PROG_BASE`. -/
  fontBase : Nat
  /-- `FX1E_SETS_VF` (R88). -/
  fx1eSetsVf : Bool
  keyIndexPolicy : KeyIndexPolicy
  fontDigitPolicy : FontDigitPolicy
  deriving DecidableEq, Repr

namespace Config

/-- FREE VALUE (log 3): the byte that the k-th `Draw()` returns (R21, R86). It has no body, so nothing
can be proved of it but that it is a byte. -/
opaque randomByte : Nat → Byte

end Config

end Sys2Proof
end

