-- ==== Sys2Proof/Machine/Params.lean ====
section
/-! DEFINITION. The values the parameters of spec/00_scope.md R5 have at State.reset, and the font table
(spec/20_memory.md R37, R38). -/

namespace Sys2Proof.Machine

/-- The defaults of R5. `FONT_BASE` is OPEN; 0x000 is the value the spec's test vectors use
(DESIGN CHOICE, log 2). -/
def defaultParams : Params :=
  { fontBase := 0x000
    fx1eSetsVf := false
    keyIndexPolicy := .halt
    fontDigitPolicy := .lowNibble }

/-- Glyphs 0 to 7 of R38, top row first. -/
def fontLow : List Byte :=
  [0xF0, 0x90, 0x90, 0x90, 0xF0] ++ [0x20, 0x60, 0x20, 0x20, 0x70] ++
  [0xF0, 0x10, 0xF0, 0x80, 0xF0] ++ [0xF0, 0x10, 0xF0, 0x10, 0xF0] ++
  [0x90, 0x90, 0xF0, 0x10, 0x10] ++ [0xF0, 0x80, 0xF0, 0x10, 0xF0] ++
  [0xF0, 0x80, 0xF0, 0x90, 0xF0] ++ [0xF0, 0x10, 0x20, 0x40, 0x40]

/-- Glyphs 8 to F of R38, top row first. -/
def fontHigh : List Byte :=
  [0xF0, 0x90, 0xF0, 0x90, 0xF0] ++ [0xF0, 0x90, 0xF0, 0x10, 0xF0] ++
  [0xF0, 0x90, 0xF0, 0x90, 0x90] ++ [0xE0, 0x90, 0xE0, 0x90, 0xE0] ++
  [0xF0, 0x80, 0x80, 0x80, 0xF0] ++ [0xE0, 0x90, 0x90, 0x90, 0xE0] ++
  [0xF0, 0x80, 0xF0, 0x80, 0xF0] ++ [0xF0, 0x80, 0xF0, 0x80, 0x80]

/-- `FONT_DATA`: the 80 bytes of R38 (the spec takes them from general knowledge, log 14). -/
def fontData : List Byte := fontLow ++ fontHigh

/-- What memory holds at address `a` after a successful `Load` of `image` and after every `Reset` of
that session: the font, the image, zero elsewhere (R48). -/
def postLoadByte (p : Params) (image : List Byte) (a : Nat) : Byte :=
  if p.fontBase ≤ a ∧ a < p.fontBase + fontSize then fontData.getD (a - p.fontBase) 0
  else if progBase ≤ a ∧ a < progBase + image.length then image.getD (a - progBase) 0
  else 0

end Sys2Proof.Machine
end

