-- ==== Sys2Proof/Machine/State.lean ====
section
/-! DEFINITION. The state of the block as plain data (spec/10_state.md), the host's commands and the
block's answers (R23, R24), and the state right after reset (R28). -/

namespace Sys2Proof.Machine

/-- Why the engine halted (spec/60_exceptions.md R100). -/
inductive HaltReason where
  /-- The fetch check failed at this `PC` (R53). -/
  | fetchOutOfBounds (pc : Word)
  /-- This word does not decode (R57). -/
  | unknownOpcode (w : Word)
  /-- The lowest out-of-range address the instruction would touch, an exact integer (R31, R100). -/
  | outOfBounds (a : Nat)
  /-- `CALL` with 16 entries on the stack (R67). -/
  | stackOverflow
  /-- `RET` with an empty stack (R65). -/
  | stackUnderflow
  /-- `Load` of an image that does not fit (R120). -/
  | imageTooLarge
  /-- `SKP` or `SKNP` with this key value, above 15 (R93, R94). -/
  | keyIndexOutOfRange (k : Byte)
  deriving DecidableEq, Repr

/-- The engine mode (R19). -/
inductive Mode where
  /-- One instruction per cycle; the source's `Running` and `Paused` are this one state. -/
  | active
  /-- `LD Vx, K` has run and no key-down has completed it; `x` is the register to be written. -/
  | waitingForKey (x : Reg)
  /-- A fatal error occurred. -/
  | halted (reason : HaltReason)
  deriving DecidableEq, Repr

/-- An outbound notification (R24). -/
inductive Event where
  | repaint
  | beep
  deriving DecidableEq, Repr

/-- What `DumpCpu` returns (R114). -/
structure CpuDump where
  v : Vector Byte 16
  i : Word
  pc : Word
  sp : Nat
  /-- Oldest first. -/
  stack : List Word
  dt : Byte
  st : Byte
  mode : Mode
  deriving DecidableEq, Repr

/-- The result of a command (R24). -/
inductive Result where
  | ok
  /-- The command raised, or a cycle found the engine halted for, this reason (R101, R102). -/
  | error (reason : HaltReason)
  /-- A key command with a code above 15 (R111). -/
  | invalidKeyCode
  /-- `DumpDisplay`: 2048 pixel bits, row-major (R113). -/
  | display (pixels : List Bool)
  /-- `DumpMemory`: 4096 bytes in address order (R114). -/
  | memory (bytes : List Byte)
  /-- `DumpCpu` (R114). -/
  | cpu (dump : CpuDump)
  deriving DecidableEq, Repr

/-- An inbound command of the host (R23). A key code is the host's number, valid or not (R111; log 18). -/
inductive Command where
  | load (image : List Byte)
  | emulateCycle
  | singleStep
  | tick
  | keyDown (code : Nat)
  | keyUp (code : Nat)
  | reset
  | dumpDisplay
  | dumpMemory
  | dumpCpu
  deriving DecidableEq, Repr

/-- Memory as the addresses whose byte differs from the post-load contents, addresses strictly rising
(Memory.wf in Machine/Ops.lean; log 9). -/
abbrev Memory := List Host.Cell

/-- The frame buffer as 32 rows of 64 one-bit pixels: bit `x` of row `y` is pixel `(x, y)` (R17;
log 17). -/
abbrev Display := Vector (BitVec 64) 32

structure State where
  /-- `V0`..`VF` (R9). -/
  v : Vector Byte 16
  /-- `I` (R11). -/
  i : Word
  /-- `PC` (R12). -/
  pc : Word
  /-- The call stack, oldest entry first; `SP` is its length (R13; log 19). -/
  stack : List Word
  /-- The delay timer (R15). -/
  dt : Byte
  /-- The sound timer (R15). -/
  st : Byte
  /-- `mem` (R16, R29). -/
  mem : Memory
  /-- `disp` (R17). -/
  disp : Display
  /-- `keys`, true for a held key (R18). -/
  keys : Vector Bool 16
  /-- The engine mode (R19). -/
  mode : Mode
  /-- The wake latch (R20; log 21). -/
  wake : Option KeyCode
  /-- The session image (R22). -/
  image : List Byte
  /-- Whether a session exists: false until the first `Load` (R125; log 7). -/
  loaded : Bool
  /-- The parameters of R5, arguments of the model that no command changes (log 2). -/
  params : Params
  /-- The model's own: how many random bytes have been drawn, the index of the next free value (R21;
  log 3). -/
  draws : Nat
  /-- The model's own: the host commands issued and not yet taken, oldest first (R25; log 1). -/
  pending : List Command
  /-- The notifications of the last command, in order (R24; log 5). -/
  events : List Event
  /-- The result of the last command (R24; log 5). -/
  result : Result
  deriving DecidableEq, Repr

/-- Why the model has no step. -/
inductive Fault where
  /-- STUCK: a command other than `Load` before any session exists. Raised by runCommand alone. The spec
  gives such a command no step ("a model gives such a command no step", R125; A13 of
  93_implementation_defined.md). Safe: nothing is claimed of the block there (log 7). -/
  | noSession
  deriving DecidableEq, Repr

/-- Why an instruction has no meaning. -/
inductive Refusal where
  /-- An instruction not modelled yet, by its mnemonic. Raised by no arm of exec: all 34 instructions
  have their meaning. Safe. -/
  | notModelled (mnemonic : String)
  deriving DecidableEq, Repr

/-- The three outcomes, over this machine's types. -/
abbrev Answer := Host.Outcome State Fault Refusal

/-- The machine right after reset (R28): the session of the empty image (log 8), nothing pending. -/
def State.reset : State :=
  { v := Vector.replicate 16 0#8
    i := 0#16
    pc := 0x200#16
    stack := []
    dt := 0#8
    st := 0#8
    mem := []
    disp := Vector.replicate 32 0#64
    keys := Vector.replicate 16 false
    mode := .active
    wake := none
    image := []
    loaded := true
    params := defaultParams
    draws := 0
    pending := []
    events := []
    result := .ok }

end Sys2Proof.Machine
end

