-- ==== Sys2Proof/Machine/Ops.lean ====
section
/-! DEFINITION. The named operations over registers, memory, stack, display and keys: the primitives of
spec/00_scope.md R7; and taking a halt, the block's only trap (spec/60_exceptions.md R101). -/

namespace Sys2Proof.Machine

/-! ## Registers and PC -/

/-- `V[x]`. -/
def State.getV (s : State) (x : Reg) : Byte := s.v[x]

/-- `V[x] <- b`. No register is hardwired (R9). -/
def State.setV (s : State) (x : Reg) (b : Byte) : State := { s with v := s.v.set x b }

/-- `V[k] <- b` for the bytes of the list, from register `k` up, in increasing order; a list that
reached past `VF` would stop there (no instruction has one). -/
def State.setVs (s : State) : Nat → List Byte → State
  | _, [] => s
  | k, b :: bs => if h : k < 16 then (s.setV ⟨k, h⟩ b).setVs (k + 1) bs else s

/-- `V0..Vx` in register order. -/
def State.regsUpTo (s : State) (x : Reg) : List Byte := s.v.toList.take (x.val + 1)

/-- `pc <- target`. -/
def State.setPc (s : State) (target : Word) : State := { s with pc := target }

/-- The default advance, `PC + 2` (R54). 16-bit: no reachable `PC` wraps (R12; log 10). -/
def State.advance (s : State) : State := s.setPc (s.pc + 2#16)

/-- `PC + 4` if the skip is taken, `PC + 2` if not; the skipped word is not looked at (R54). -/
def State.skipIf (s : State) (taken : Bool) : State :=
  if taken then s.setPc (s.pc + 4#16) else s.advance

/-! ## Halts and notifications -/

/-- TAKING A HALT (R101): every other effect of the command is discarded (`s` is the state before it),
the mode becomes `Halted(reason)`, no event is emitted and the result is the reason. -/
def State.halt (s : State) (reason : HaltReason) : State :=
  { s with mode := .halted reason, events := [], result := .error reason }

/-- An instruction ends: with the state it worked out, or by the halt it raised, taken in the state
before it (R101). -/
def State.commit (s : State) (r : Except HaltReason State) : Answer :=
  match r with
  | .ok t => .next t
  | .error reason => .next (s.halt reason)

/-- `signal e`: appended to the command's list of notifications (R24). -/
def State.signal (s : State) (e : Event) : State := { s with events := s.events ++ [e] }

/-- A command begins with no notification and the result `Ok` (R24). -/
def State.beginCommand (s : State) : State := { s with events := [], result := .ok }

/-! ## Memory as a list in canonical form -/

/-- The byte listed at an address. -/
def Memory.lookup : Memory → Nat → Option Byte
  | [], _ => none
  | (b, v) :: rest, a => if b = a then some v else Memory.lookup rest a

/-- List a byte at its place in the rising order, in the place of one already there. -/
def Memory.insert : Memory → Nat → Byte → Memory
  | [], a, v => [(a, v)]
  | (b, w) :: rest, a, v =>
    if a < b then (a, v) :: (b, w) :: rest
    else if a = b then (a, v) :: rest
    else (b, w) :: Memory.insert rest a v

/-- List nothing at an address. -/
def Memory.erase : Memory → Nat → Memory
  | [], _ => []
  | (b, w) :: rest, a => if b = a then Memory.erase rest a else (b, w) :: Memory.erase rest a

/-- Write, where `dflt` is what the address reads as when unlisted: writing that value unlists it. -/
def Memory.write (m : Memory) (dflt : Byte) (a : Nat) (v : Byte) : Memory :=
  if v = dflt then Memory.erase m a else Memory.insert m a v

/-- The canonical form: addresses strictly rise, all inside memory, and no entry equals what the
unlisted address reads as. -/
abbrev Memory.wf (dflt : Nat → Byte) (m : Memory) : Prop :=
  m.Pairwise (fun c d => c.1 < d.1) ∧ ∀ c ∈ m, c.1 < memSize ∧ c.2 ≠ dflt c.1

/-! ## Memory access -/

/-- What an unlisted address of this session reads as: the post-load contents (R48). -/
def State.unlisted (s : State) (a : Nat) : Byte := postLoadByte s.params s.image a

/-- `mem[a]`, the byte last written there, or the session's initial one (R40, R43). -/
def State.readByte (s : State) (a : Nat) : Byte := (s.mem.lookup a).getD (s.unlisted a)

/-- `mem[a] <- v`. -/
def State.writeByte (s : State) (a : Nat) (v : Byte) : State :=
  { s with mem := s.mem.write (s.unlisted a) a v }

/-- The memory of a state is in canonical form. -/
abbrev State.memWf (s : State) : Prop := s.mem.wf s.unlisted

/-- `MemRead(a, 1)` (R35). -/
def State.memRead (s : State) (a : Nat) : Except HaltReason Byte :=
  if memSize ≤ a then .error (.outOfBounds a) else .ok (s.readByte a)

/-- `MemWrite(a, 1, v)` (R36). -/
def State.memWrite (s : State) (a : Nat) (v : Byte) : Except HaltReason State :=
  if memSize ≤ a then .error (.outOfBounds a) else .ok (s.writeByte a v)

/-- `n` reads at `a`, `a + 1`, ... in increasing order (R39). It fails with the lowest bad address,
which is what the instructions' bounds check reports (R64, R92, R103; log 11). -/
def State.readRun (s : State) : Nat → Nat → Except HaltReason (List Byte)
  | _, 0 => .ok []
  | a, n + 1 =>
    match s.memRead a with
    | .error e => .error e
    | .ok b =>
      match s.readRun (a + 1) n with
      | .error e => .error e
      | .ok bs => .ok (b :: bs)

/-- Writes at `a`, `a + 1`, ... in increasing order (R39). It fails with the lowest bad address, and
then no byte lands, since commit drops the state worked out so far (R90, R91, R101; log 11). -/
def State.writeRun (s : State) : Nat → List Byte → Except HaltReason State
  | _, [] => .ok s
  | a, b :: bs =>
    match s.memWrite a b with
    | .error e => .error e
    | .ok t => t.writeRun (a + 1) bs

/-! ## Call stack -/

/-- `Push(v)` (R14). -/
def State.push (s : State) (v : Word) : Except HaltReason State :=
  if stackDepth ≤ s.stack.length then .error .stackOverflow
  else .ok { s with stack := s.stack ++ [v] }

/-- `Pop()`: the newest entry, and the state without it (R14). -/
def State.pop (s : State) : Except HaltReason (Word × State) :=
  match s.stack.getLast? with
  | none => .error .stackUnderflow
  | some v => .ok (v, { s with stack := s.stack.dropLast })

/-! ## Display -/

/-- `Pixel(x, y)` (R17). -/
def Display.pixel (d : Display) (x : Fin 64) (y : Fin 32) : Bool := d[y].getLsbD x

/-- `Pixel(x, y) <- Pixel(x, y) XOR 1`. -/
def Display.flip (d : Display) (x : Fin 64) (y : Fin 32) : Display :=
  d.set y (d[y] ^^^ (1#64 <<< x.val))

/-- All pixels 0. -/
def Display.clear : Display := Vector.replicate 32 0#64

/-- One bit of a sprite row: column offset `c` from the left edge `x0`, wrapping horizontally. The pair
is the display and whether a set pixel has been turned off (R64). -/
def Display.blitBit (x0 : Nat) (py : Fin 32) (row : Byte) (acc : Display × Bool) (c : Nat) :
    Display × Bool :=
  if row.getLsbD (7 - c) then
    let px : Fin 64 := Fin.ofNat 64 (x0 + c)
    (Display.flip acc.1 px py, acc.2 || Display.pixel acc.1 px py)
  else acc

/-- One sprite row on display row `py`, bit 7 leftmost (R39, R64). -/
def Display.blitRow (x0 : Nat) (py : Fin 32) (row : Byte) (acc : Display × Bool) : Display × Bool :=
  (List.range 8).foldl (Display.blitBit x0 py row) acc

/-- `BlitSprite`: the rows from display row `py` down; a row below row 31 is skipped (R64). -/
def Display.blit (x0 : Nat) : Nat → List Byte → Display × Bool → Display × Bool
  | _, [], acc => acc
  | py, row :: rows, acc =>
    Display.blit x0 (py + 1) rows (if h : py < 32 then Display.blitRow x0 ⟨py, h⟩ row acc else acc)

/-- The row-major snapshot: element `y*64 + x` is pixel `(x, y)` (R17, R113). -/
def Display.snapshot (d : Display) : List Bool :=
  d.toList.flatMap fun row => (List.range 64).map fun x => row.getLsbD x

/-! ## Keys -/

/-- `Key(k)` (R18). -/
def State.key (s : State) (k : KeyCode) : Bool := s.keys[k]

/-- Set or clear key flag `k`: the host's `KeyDown` and `KeyUp` alone (R18). -/
def State.setKey (s : State) (k : KeyCode) (held : Bool) : State :=
  { s with keys := s.keys.set k held }

end Sys2Proof.Machine
end

