-- ==== Sys2Proof/Machine/Flags.lean ====
section
/-! DEFINITION. Every flag computation of the block, all kept in `VF` (spec/10_state.md R10,
spec/42_register_alu.md R74). -/

namespace Sys2Proof.Machine

/-- A flag as the byte `VF` holds: 0 or 1. -/
def flagByte (f : Bool) : Byte := if f then 1#8 else 0#8

/-- The carry of `ADD Vx, Vy`: the unsigned sum exceeds 255 (R81). -/
def carryOf (a b : Byte) : Bool := 255 < a.toNat + b.toNat

/-- The no-borrow flag of `a - b`: `a >= b` (R82, R84). -/
def noBorrowOf (a b : Byte) : Bool := b.toNat ≤ a.toNat

/-- The bit `SHR` shifts out: bit 0 (R83). -/
def shrOutOf (a : Byte) : Bool := a.getLsbD 0

/-- The bit `SHL` shifts out: bit 7 (R85). -/
def shlOutOf (a : Byte) : Bool := a.getLsbD 7

/-- The flag of `ADD I, Vx` when the parameter asks for it: the sum is past 0xFFF (R88). -/
def indexOverflowOf (sum : Nat) : Bool := 0xFFF < sum

/-- `VF <- f`. -/
def State.setFlag (s : State) (f : Bool) : State := s.setV vf (flagByte f)

/-- A result to `Vx` and then a flag to `VF`: with `x = 0xF` the flag is what `VF` holds (R74). -/
def State.setResultAndFlag (s : State) (x : Reg) (b : Byte) (f : Bool) : State :=
  (s.setV x b).setFlag f

end Sys2Proof.Machine
end

