-- ==== Sys2Proof/Machine/Operands.lean ====
section
/-! DEFINITION. The operand forms: immediates, memory at `I`, the key a register names, the glyph a
register names, and the decimal digits of a byte (spec/30_encoding.md R50, spec/20_memory.md R31,
spec/43_index_memory.md R89, R90, spec/44_input_timers.md R93). -/

namespace Sys2Proof.Machine

/-- A 12-bit address as a 16-bit value, zero-extended (R50). -/
def addrWord (nnn : BitVec 12) : Word := nnn.setWidth 16

/-- The data address `I + 0` as an exact integer; the following ones count on from it without
wrapping (R31). -/
def State.dataAddr (s : State) : Nat := s.i.toNat

/-- The low nibble of a byte as a key code. -/
def lowNibble (b : Byte) : KeyCode := (b.extractLsb' 0 4).toFin

/-- The key that `V[x] = k` names: above 15 the policy decides (R93, R94). -/
def keyOperand (p : Params) (k : Byte) : Except HaltReason KeyCode :=
  if 15 < k.toNat then
    match p.keyIndexPolicy with
    | .halt => .error (.keyIndexOutOfRange k)
    | .lowNibble => .ok (lowNibble k)
  else .ok (lowNibble k)

/-- The digit that `V[x] = b` names in `LD F, Vx` (R89). -/
def fontDigit (p : Params) (b : Byte) : Nat :=
  match p.fontDigitPolicy with
  | .lowNibble => (b.extractLsb' 0 4).toNat
  | .fullByte => b.toNat

/-- `FONT_BASE + 5 * d`, the address of glyph `d` (R37, R89). -/
def glyphAddr (p : Params) (d : Nat) : Word := BitVec.ofNat 16 (p.fontBase + 5 * d)

/-- Hundreds, tens and units of a byte, in the order they are stored (R41, R90). -/
def bcdDigits (b : Byte) : List Byte :=
  [BitVec.ofNat 8 (b.toNat / 100), BitVec.ofNat 8 (b.toNat / 10 % 10), BitVec.ofNat 8 (b.toNat % 10)]

/-- The left column of a sprite: `V[x] mod 64` (R64). -/
def spriteCol (b : Byte) : Nat := b.toNat % 64

/-- The top row of a sprite: `V[y] mod 32` (R64). -/
def spriteRow (b : Byte) : Nat := b.toNat % 32

end Sys2Proof.Machine
end

