-- ==== Sys2Proof/Machine/Alu.lean ====
section
/-! DEFINITION. The register and arithmetic instructions (spec/42_register_alu.md): operands are read
from the state before the instruction, the result is written, then the flag, then `PC + 2` (R74). -/

namespace Sys2Proof.Machine

/-- `LD Vx, nn` (R75). -/
def execLdImm (x : Reg) (nn : Byte) (s : State) : Answer := .next (s.setV x nn).advance

/-- `ADD Vx, nn` (R76): wraps mod 256, no flag. -/
def execAddImm (x : Reg) (nn : Byte) (s : State) : Answer := .next (s.setV x (s.getV x + nn)).advance

/-- `LD Vx, Vy` (R77). -/
def execLdReg (x y : Reg) (s : State) : Answer := .next (s.setV x (s.getV y)).advance

/-- `OR Vx, Vy` (R78): `VF` is not cleared. -/
def execOr (x y : Reg) (s : State) : Answer := .next (s.setV x (s.getV x ||| s.getV y)).advance

/-- `AND Vx, Vy` (R79). -/
def execAnd (x y : Reg) (s : State) : Answer := .next (s.setV x (s.getV x &&& s.getV y)).advance

/-- `XOR Vx, Vy` (R80). -/
def execXor (x y : Reg) (s : State) : Answer := .next (s.setV x (s.getV x ^^^ s.getV y)).advance

/-- `ADD Vx, Vy` (R81). -/
def execAdd (x y : Reg) (s : State) : Answer :=
  .next (s.setResultAndFlag x (s.getV x + s.getV y) (carryOf (s.getV x) (s.getV y))).advance

/-- `SUB Vx, Vy` (R82). -/
def execSub (x y : Reg) (s : State) : Answer :=
  .next (s.setResultAndFlag x (s.getV x - s.getV y) (noBorrowOf (s.getV x) (s.getV y))).advance

/-- `SHR Vx` (R83): the source is `Vx`; the `y` field is not used. -/
def execShr (x : Reg) (s : State) : Answer :=
  .next (s.setResultAndFlag x (s.getV x >>> 1) (shrOutOf (s.getV x))).advance

/-- `SUBN Vx, Vy` (R84). -/
def execSubn (x y : Reg) (s : State) : Answer :=
  .next (s.setResultAndFlag x (s.getV y - s.getV x) (noBorrowOf (s.getV y) (s.getV x))).advance

/-- `SHL Vx` (R85): the source is `Vx`; the `y` field is not used. -/
def execShl (x : Reg) (s : State) : Answer :=
  .next (s.setResultAndFlag x (s.getV x <<< 1) (shlOutOf (s.getV x))).advance

/-- `Draw()`: the next free byte, and the state in which it has been taken (R21; log 3). -/
def State.draw (s : State) : Byte × State :=
  (Config.randomByte s.draws, { s with draws := s.draws + 1 })

/-- `RND Vx, nn` (R86). -/
def execRnd (x : Reg) (nn : Byte) (s : State) : Answer :=
  .next (s.draw.2.setV x (s.draw.1 &&& nn)).advance

end Sys2Proof.Machine
end

