-- ==== Sys2Proof/Machine/Control.lean ====
section
/-! DEFINITION. The control-flow instructions (spec/41_control_flow.md). -/

namespace Sys2Proof.Machine

/-- `RET` (R65): the popped value is the target, with no further advance. -/
def execRet (s : State) : Answer :=
  s.commit <|
    match s.pop with
    | .error e => .error e
    | .ok (target, t) => .ok (t.setPc target)

/-- `JP nnn` (R66). -/
def execJp (nnn : BitVec 12) (s : State) : Answer := .next (s.setPc (addrWord nnn))

/-- `CALL nnn` (R67): the address of the next instruction, `PC + 2`, is saved. -/
def execCall (nnn : BitVec 12) (s : State) : Answer :=
  s.commit <|
    match s.push (s.pc + 2#16) with
    | .error e => .error e
    | .ok t => .ok (t.setPc (addrWord nnn))

/-- `SE Vx, nn` (R68). -/
def execSeImm (x : Reg) (nn : Byte) (s : State) : Answer := .next (s.skipIf (s.getV x == nn))

/-- `SNE Vx, nn` (R69). -/
def execSneImm (x : Reg) (nn : Byte) (s : State) : Answer := .next (s.skipIf (s.getV x != nn))

/-- `SE Vx, Vy` (R70). -/
def execSeReg (x y : Reg) (s : State) : Answer := .next (s.skipIf (s.getV x == s.getV y))

/-- `SNE Vx, Vy` (R71). -/
def execSneReg (x y : Reg) (s : State) : Answer := .next (s.skipIf (s.getV x != s.getV y))

/-- `JP V0, nnn` (R72): a 16-bit sum, not reduced to 12 bits. -/
def execJpV0 (nnn : BitVec 12) (s : State) : Answer :=
  .next (s.setPc (addrWord nnn + (s.getV 0).setWidth 16))

end Sys2Proof.Machine
end

