-- ==== Sys2Proof/Machine/Display.lean ====
section
/-! DEFINITION. The display instructions (spec/40_display.md). -/

namespace Sys2Proof.Machine

/-- `CLS` (R63): every pixel 0, `Repaint` signalled whether or not one changed (R112). -/
def execCls (s : State) : Answer :=
  .next (({ s with disp := Display.clear }).signal .repaint).advance

/-- `DRW Vx, Vy, n` (R64): the coordinates are read before `VF` is written; all `n` bytes are read,
clipped rows included; `VF` is the collision. -/
def execDrw (x y : Reg) (n : BitVec 4) (s : State) : Answer :=
  s.commit <|
    match s.readRun s.dataAddr n.toNat with
    | .error e => .error e
    | .ok rows =>
      let drawn := Display.blit (spriteCol (s.getV x)) (spriteRow (s.getV y)) rows (s.disp, false)
      .ok ((({ s with disp := drawn.1 }).setFlag drawn.2).signal .repaint).advance

end Sys2Proof.Machine
end

