-- ==== Sys2Proof/Machine/IndexMemory.lean ====
section
/-! DEFINITION. The index-register and memory-transfer instructions (spec/43_index_memory.md). No
access changes `I` (R31). -/

namespace Sys2Proof.Machine

/-- `LD I, nnn` (R87). -/
def execLdI (nnn : BitVec 12) (s : State) : Answer := .next ({ s with i := addrWord nnn }).advance

/-- `ADD I, Vx` (R88): wraps mod 65536; `VF` is written only under `FX1E_SETS_VF`. -/
def execAddI (x : Reg) (s : State) : Answer :=
  let sum := s.i.toNat + (s.getV x).toNat
  let t : State := { s with i := BitVec.ofNat 16 sum }
  .next (if s.params.fx1eSetsVf then t.setFlag (indexOverflowOf sum) else t).advance

/-- `LD F, Vx` (R89): no memory is accessed. -/
def execLdFont (x : Reg) (s : State) : Answer :=
  .next ({ s with i := glyphAddr s.params (fontDigit s.params (s.getV x)) }).advance

/-- `LD B, Vx` (R90). -/
def execLdBcd (x : Reg) (s : State) : Answer :=
  s.commit <|
    match s.writeRun s.dataAddr (bcdDigits (s.getV x)) with
    | .error e => .error e
    | .ok t => .ok t.advance

/-- `LD [I], Vx` (R91). -/
def execStoreRegs (x : Reg) (s : State) : Answer :=
  s.commit <|
    match s.writeRun s.dataAddr (s.regsUpTo x) with
    | .error e => .error e
    | .ok t => .ok t.advance

/-- `LD Vx, [I]` (R92). -/
def execLoadRegs (x : Reg) (s : State) : Answer :=
  s.commit <|
    match s.readRun s.dataAddr (x.val + 1) with
    | .error e => .error e
    | .ok bytes => .ok (s.setVs 0 bytes).advance

end Sys2Proof.Machine
end

