-- ==== Sys2Proof/Machine/InputTimers.lean ====
section
/-! DEFINITION. The input and timer instructions (spec/44_input_timers.md). -/

namespace Sys2Proof.Machine

/-- `SKP Vx` (R93). -/
def execSkp (x : Reg) (s : State) : Answer :=
  s.commit <|
    match keyOperand s.params (s.getV x) with
    | .error e => .error e
    | .ok k => .ok (s.skipIf (s.key k))

/-- `SKNP Vx` (R94). -/
def execSknp (x : Reg) (s : State) : Answer :=
  s.commit <|
    match keyOperand s.params (s.getV x) with
    | .error e => .error e
    | .ok k => .ok (s.skipIf (!s.key k))

/-- `LD Vx, K` (R95): enters the wait with the latch empty; `PC` advances now. -/
def execLdKey (x : Reg) (s : State) : Answer :=
  .next ({ s with mode := .waitingForKey x, wake := none }).advance

/-- `LD Vx, DT` (R97). -/
def execLdFromDt (x : Reg) (s : State) : Answer := .next (s.setV x s.dt).advance

/-- `LD DT, Vx` (R98). -/
def execLdDt (x : Reg) (s : State) : Answer := .next ({ s with dt := s.getV x }).advance

/-- `LD ST, Vx` (R99): no `Beep` is signalled here. -/
def execLdSt (x : Reg) (s : State) : Answer := .next ({ s with st := s.getV x }).advance

end Sys2Proof.Machine
end

