-- ==== Sys2Proof/Machine/Cycle.lean ====
section
/-! DEFINITION. `EmulateCycle` (spec/30_encoding.md R52, spec/44_input_timers.md R96,
spec/60_exceptions.md R102). -/

namespace Sys2Proof.Machine

/-- The instruction word at `PC`: the byte at `PC` is bits 15:8 (R41, R49). The fetch bound is
checked before it is read. -/
def State.fetchWord (s : State) : Word :=
  wordOfBytes (s.readByte s.pc.toNat) (s.readByte (s.pc.toNat + 1))

/-- `EmulateCycle` in `Active` (R52): fetch bound, fetch, decode, execute, in that order (R103). -/
def cycleActive (s : State) : Answer :=
  if memSize ≤ s.pc.toNat + 1 then .next (s.halt (.fetchOutOfBounds s.pc))
  else
    match decode s.fetchWord with
    | .error _ => .next (s.halt (.unknownOpcode s.fetchWord))
    | .ok i => exec i s

/-- `EmulateCycle` in `WaitingForKey(x)` (R96): the latched key completes the wait and no instruction
runs in this cycle; with no key latched nothing changes. -/
def cycleWaiting (x : Reg) (s : State) : Answer :=
  match s.wake with
  | some k => .next ({ s with wake := none, mode := .active }.setV x (BitVec.ofNat 8 k.val))
  | none => .next s

/-- `EmulateCycle` in `Halted(reason)` (R102): no state changes, no event, the reason is returned. -/
def cycleHalted (reason : HaltReason) (s : State) : Answer :=
  .next { s with result := .error reason }

/-- `EmulateCycle()` (R23): what it does depends on the mode. It begins with no event and `Ok`. -/
def emulateCycle (s : State) : Answer :=
  match s.mode with
  | .active => cycleActive s.beginCommand
  | .waitingForKey x => cycleWaiting x s.beginCommand
  | .halted reason => cycleHalted reason s.beginCommand

end Sys2Proof.Machine
end

