-- ==== Sys2Proof/Machine/Commands.lean ====
section
/-! DEFINITION. The host's commands (spec/10_state.md R23 to R25): Load and Reset
(spec/70_reset_and_hazards.md), Tick, key events and dumps (spec/60_exceptions.md). -/

namespace Sys2Proof.Machine

/-- A fresh session of this image: every piece of state as R28 gives it, memory as R48. The parameters
and the host's queue are not the session's. The draw counter goes on, so a draw after a reset is
unrelated to those before it (R116; log 4). -/
def freshSession (image : List Byte) (s : State) : State :=
  { State.reset with
    image := image
    params := s.params
    draws := s.draws
    pending := s.pending }

/-- `Load(image)` (R119, R120): an image that does not fit leaves the empty session, halted. -/
def cmdLoad (image : List Byte) (s : State) : State :=
  if image.length ≤ maxImage then freshSession image s
  else (freshSession [] s).halt .imageTooLarge

/-- `Reset()` (R122), in every mode (R123). -/
def cmdReset (s : State) : State := freshSession s.image s

/-- One 60 Hz step of a timer: it saturates at 0 (R15, R107). -/
def tickTimer (t : Byte) : Byte := if 0 < t.toNat then t - 1#8 else t

/-- `Tick()` (R107, R108; log 22), in every mode. -/
def cmdTick (s : State) : State :=
  let t : State := { s.beginCommand with dt := tickTimer s.dt, st := tickTimer s.st }
  if 0 < s.st.toNat then t.signal .beep else t

/-- The latch of `KeyDown`: only the first key-down of a wait is recorded (R20, R109). -/
def latchKey (mode : Mode) (wake : Option KeyCode) (k : KeyCode) : Option KeyCode :=
  match mode, wake with
  | .waitingForKey _, none => some k
  | _, _ => wake

/-- `KeyDown(code)` (R109, R111), in every mode. -/
def cmdKeyDown (code : Nat) (s : State) : State :=
  if h : code < 16 then
    { s.beginCommand.setKey ⟨code, h⟩ true with wake := latchKey s.mode s.wake ⟨code, h⟩ }
  else { s.beginCommand with result := .invalidKeyCode }

/-- `KeyUp(code)` (R110, R111), in every mode; the latch stays. -/
def cmdKeyUp (code : Nat) (s : State) : State :=
  if h : code < 16 then s.beginCommand.setKey ⟨code, h⟩ false
  else { s.beginCommand with result := .invalidKeyCode }

/-- `DumpDisplay()` (R113). -/
def cmdDumpDisplay (s : State) : State :=
  { s.beginCommand with result := .display (Display.snapshot s.disp) }

/-- `DumpMemory()` (R114): the bytes in address order. -/
def cmdDumpMemory (s : State) : State :=
  { s.beginCommand with result := .memory ((List.range memSize).map s.readByte) }

/-- The fields `DumpCpu` returns (R114). -/
def State.cpuDump (s : State) : CpuDump :=
  { v := s.v, i := s.i, pc := s.pc, sp := s.stack.length, stack := s.stack
    dt := s.dt, st := s.st, mode := s.mode }

/-- `DumpCpu()` (R114). -/
def cmdDumpCpu (s : State) : State := { s.beginCommand with result := .cpu s.cpuDump }

/-- `Step()` has exactly the effect of one `EmulateCycle` (R62). -/
def cmdSingleStep (s : State) : Answer := emulateCycle s

/-- A command in a session (R23). -/
def sessionCommand (c : Command) (s : State) : Answer :=
  match c with
  | .load image => .next (cmdLoad image s)
  | .emulateCycle => emulateCycle s
  | .singleStep => cmdSingleStep s
  | .tick => .next (cmdTick s)
  | .keyDown code => .next (cmdKeyDown code s)
  | .keyUp code => .next (cmdKeyUp code s)
  | .reset => .next (cmdReset s)
  | .dumpDisplay => .next (cmdDumpDisplay s)
  | .dumpMemory => .next (cmdDumpMemory s)
  | .dumpCpu => .next (cmdDumpCpu s)

/-- A command before the first `Load`: only `Load` has a step (R119, R125). -/
def firstCommand (c : Command) (s : State) : Answer :=
  match c with
  | .load image => .next (cmdLoad image s)
  | .emulateCycle => .fault .noSession
  | .singleStep => .fault .noSession
  | .tick => .fault .noSession
  | .keyDown _ => .fault .noSession
  | .keyUp _ => .fault .noSession
  | .reset => .fault .noSession
  | .dumpDisplay => .fault .noSession
  | .dumpMemory => .fault .noSession
  | .dumpCpu => .fault .noSession

/-- `step(S, command)` of R25: one command, taken to completion. -/
def runCommand (c : Command) (s : State) : Answer :=
  if s.loaded then sessionCommand c s else firstCommand c s

/-- The block as it is before the first `Load`: no session (R125). -/
def beforeLoad : State := { State.reset with loaded := false }

end Sys2Proof.Machine
end

