-- ==== Sys2Proof/Machine/Step.lean ====
section
/-! DEFINITION. One step: the oldest command the host has issued is taken, and where it has issued none
it issues `EmulateCycle` (spec/10_state.md R25; log 1). -/

namespace Sys2Proof.Machine

/-- One step of the block. -/
def step (s : State) : Host.Outcome State Fault Refusal :=
  match s.pending with
  | [] => runCommand .emulateCycle s
  | c :: rest => runCommand c { s with pending := rest }

/-- The state with the wait or the halt ended, so that a cycle fetches. -/
def State.readyToFetch (s : State) : State :=
  match s.mode with
  | .active => s
  | _ => { s with mode := .active, wake := none }

/-- The state with `PC` where a fetch can succeed: where it is, or the program base if the fetch bound
would fail there (R53). -/
def State.fetchable (s : State) : State :=
  if memSize ≤ s.pc.toNat + 1 then s.setPc (BitVec.ofNat 16 progBase) else s

/-- `s` with the instruction word `w` stored where the next step fetches: in a session, `Active`, no
other command waiting, the two bytes at `PC` and `PC + 1` (R41; log 8). -/
def State.withFetchWord (s : State) (nbits w : Nat) : State :=
  let t := { s.readyToFetch.fetchable with loaded := true, pending := [] }
  (t.writeByte t.pc.toNat (firstByte (tableWord nbits w))).writeByte (t.pc.toNat + 1)
    (secondByte (tableWord nbits w))

end Sys2Proof.Machine
end

