-- ==== Sys2Proof/WellFormed.lean ====
section
/-! DEFINITION. What the types do not already say of a term. Instructions need no check: every field
of Instr has exactly the width of its bits in the word (spec/30_encoding.md R50, R51), so an
ill-formed instruction cannot be written. What can be ill formed is a parameter set and the session
image of a state. -/

namespace Sys2Proof

/-- R5: the font lies wholly below the program base, `FONT_BASE + 80 <= PROG_BASE`
(log 20). -/
def Params.wf (p : Params) : Bool := p.fontBase + fontSize ≤ progBase

/-- R119, R120: the image fits between the program base and the end of memory. -/
def imageFits (image : List Byte) : Bool := image.length ≤ maxImage

end Sys2Proof
end

