-- ==== Sys2Proof/Safety.lean ====
section
/-! DEFINITION. The terms the statements use: the machine's invariant, what an instruction leaves alone,
and which display pixels a sprite covers. -/

namespace Sys2Proof.Machine

/-- What holds at reset and after every step from a state in which it holds. -/
structure State.Inv (s : State) : Prop where
  /-- The memory list is in its canonical form, inside the 4096 bytes (R29). -/
  memory : s.memWf
  /-- "depth never exceeds 16" (R13). -/
  depth : s.stack.length ≤ 16
  /-- A saved `PC` is the address after a `CALL` at 0xFFE or below (R65). -/
  saved : ∀ a ∈ s.stack, a.toNat ≤ 0x1000
  /-- `PC` reaches at most 0x10FE (R12). -/
  pcBound : s.pc.toNat ≤ 0x10FE
  /-- A key is latched only while a key wait lasts (R20). -/
  latch : s.wake ≠ none → ∃ x, s.mode = .waitingForKey x
  /-- The font lies below the program base (R5). -/
  params : s.params.wf = true
  /-- The session image fits (R119). -/
  image : imageFits s.image = true

/-- Every register not in the list is unchanged. -/
def KeepsRegsExcept (written : List Reg) (s t : State) : Prop :=
  ∀ r, r ∉ written → t.getV r = s.getV r

/-- Every byte of memory reads as before. -/
def KeepsMemory (s t : State) : Prop := ∀ a, t.readByte a = s.readByte a

/-- Every byte outside the `n` bytes from `a` reads as before. -/
def KeepsMemoryOutside (a n : Nat) (s t : State) : Prop :=
  ∀ p, ¬ (a ≤ p ∧ p < a + n) → t.readByte p = s.readByte p

/-- A register instruction's frame: the registers not in the list, every byte of memory and every other
piece of state are unchanged; `PC` may change. -/
def RegisterFrame (written : List Reg) (s t : State) : Prop :=
  KeepsRegsExcept written s t ∧ KeepsMemory s t ∧ t = { s with v := t.v, pc := t.pc }

/-- Nothing but `PC` changes. -/
def OnlyPcChanges (s t : State) : Prop := KeepsMemory s t ∧ t = { s with pc := t.pc }

/-- The lowest bad address of the `n` accesses from `a` is `bad` (R100, R103). -/
def LowestBad (a n bad : Nat) : Prop :=
  ∃ k, k < n ∧ bad = a + k ∧ 4096 ≤ bad ∧ ∀ j, j < k → a + j < 4096

/-- A sprite of `n` rows read from address `base`, its top left pixel at column `x0`, row `y0`, has a 1
bit on display pixel `(px, py)`: columns wrap at 64, rows below 31 are clipped, bit 7 is leftmost
(R39, R64). -/
def spriteCovers (s : State) (base x0 y0 n : Nat) (px : Fin 64) (py : Fin 32) : Prop :=
  y0 ≤ py.val ∧ py.val < y0 + n ∧
    ∃ c, c < 8 ∧ px.val = (x0 + c) % 64 ∧ (s.readByte (base + (py.val - y0))).getLsbD (7 - c) = true

/-- The commands that neither reset nor load (R102). -/
def Command.keepsSession : Command → Bool
  | .load _ => false
  | .reset => false
  | .emulateCycle => true
  | .singleStep => true
  | .tick => true
  | .keyDown _ => true
  | .keyUp _ => true
  | .dumpDisplay => true
  | .dumpMemory => true
  | .dumpCpu => true

/-- The commands that are neither a cycle nor a reset nor a load: they may arrive during a key wait
(R95). -/
def Command.betweenCycles : Command → Bool
  | .load _ => false
  | .reset => false
  | .emulateCycle => false
  | .singleStep => false
  | .tick => true
  | .keyDown _ => true
  | .keyUp _ => true
  | .dumpDisplay => true
  | .dumpMemory => true
  | .dumpCpu => true

/-- The commands under which a key wait with no key latched goes on: all but a load, a reset and the `KeyDown`
of a code 0..15 (R95, R109, R111). -/
def Command.latchesNoKey : Command → Bool
  | .load _ => false
  | .reset => false
  | .keyDown code => decide (15 < code)
  | .emulateCycle => true
  | .singleStep => true
  | .tick => true
  | .keyUp _ => true
  | .dumpDisplay => true
  | .dumpMemory => true
  | .dumpCpu => true

/-- The byte at `p` once the bytes `bs` have been stored from address `a` up (R36, R39). -/
def State.byteAfterStore (s : State) (a : Nat) (bs : List Byte) (p : Nat) : Byte :=
  if a ≤ p ∧ p < a + bs.length then bs.getD (p - a) 0 else s.readByte p

/-- The general registers an instruction's rule writes, as a result or as the flag `VF` (R10, R74; `ADD I`
writes the flag only under the parameter, R88). -/
def writtenRegs (p : Params) : Instr → List Reg
  | .cls => []
  | .ret => []
  | .jp _ => []
  | .call _ => []
  | .seImm _ _ => []
  | .sneImm _ _ => []
  | .seReg _ _ => []
  | .sneReg _ _ => []
  | .ldImm x _ => [x]
  | .addImm x _ => [x]
  | .ldReg x _ => [x]
  | .orReg x _ => [x]
  | .andReg x _ => [x]
  | .xorReg x _ => [x]
  | .addReg x _ => [x, vf]
  | .sub x _ => [x, vf]
  | .shr x _ => [x, vf]
  | .subn x _ => [x, vf]
  | .shl x _ => [x, vf]
  | .ldI _ => []
  | .jpV0 _ => []
  | .rnd x _ => [x]
  | .drw _ _ _ => [vf]
  | .skp _ => []
  | .sknp _ => []
  | .ldKey _ => []
  | .ldFromDt x => [x]
  | .ldDt _ => []
  | .ldSt _ => []
  | .addI _ => if p.fx1eSetsVf then [vf] else []
  | .ldFont _ => []
  | .ldBcd _ => []
  | .storeRegs _ => []
  | .loadRegs x => (List.finRange 16).filter fun k => k ≤ x

/-- The state with these host commands waiting and no other. -/
def State.withPending (s : State) (cs : List Command) : State := { s with pending := cs }

end Sys2Proof.Machine
end

