-- ==== Sys2Proof/Certificates/Slice0/Obligations.lean ====
section
/-! DEFINITION. The statements about the model, for the provers. Each docstring names the rules of spec/
it formalises; "decided" marks a clause that rests on a decision the spec marks as its own. -/

open Sys2Proof Sys2Proof.Machine

/-! ## Encoding -/

/-- Words written out bit by bit from the patterns of R51 and R55, one or more per family, decode to the
instructions they stand for (patterns: decided, D2). -/
def Obligations.WordsDecodeAsThePatternsSay : Prop :=
  decode 0b0000000011100000#16 = .ok .cls ∧
  decode 0b1101000100101111#16 = .ok (.drw 1 2 15) ∧
  decode 0b0000000011101110#16 = .ok .ret ∧
  decode 0b0001001000110100#16 = .ok (.jp 0x234) ∧
  decode 0b1001001101010000#16 = .ok (.sneReg 3 5) ∧
  decode 0b0110101001000010#16 = .ok (.ldImm 10 0x42) ∧
  decode 0b1000010001110110#16 = .ok (.shr 4 7) ∧
  decode 0b1010001011110000#16 = .ok (.ldI 0x2F0) ∧
  decode 0b1111001001010101#16 = .ok (.storeRegs 2) ∧
  decode 0b1110000110011110#16 = .ok (.skp 1) ∧
  decode 0b1111001100001010#16 = .ok (.ldKey 3) ∧
  decode 0b0101000100100001#16 = .error (.unknownOpcode 0x5121#16)

/-- Decoding the word of any instruction gives that instruction back, with every operand at every value
its field admits (R50, R51, R55, R59). Word patterns: D2, log 12. -/
def Obligations.DecodeOfEncodeIsTheInstruction : Prop :=
  ∀ i : Instr, decode (encode i) = .ok i ∧ decodeBytes (encodeBytes i) = .ok (i, [])

/-- Every word that decodes is the word of the instruction it decodes to: no bit is dropped, the unused
`y` of `SHR` and `SHL` among them (R50, R51, R56, R58; exact match: decided, D6, word patterns: D2, log 12). -/
def Obligations.EncodeOfDecodeIsTheWord : Prop :=
  ∀ (w : Word) (i : Instr), decode w = .ok i → encode i = w

/-- A word decodes exactly when it matches a row of the opcode table on every fixed bit, and no two rows
match one word; any other word is unknown (R56, R57; exact match: decided, D6). Word patterns: D2, log 12. -/
def Obligations.WordsDecodeExactlyWhenARowMatches : Prop :=
  (∀ w : Word, (∃ i, decode w = .ok i) ↔ ∃ r ∈ opcodeRows, w &&& r.2 = r.1) ∧
  (∀ w : Word, (∀ r ∈ opcodeRows, w &&& r.2 ≠ r.1) → decode w = .error (.unknownOpcode w)) ∧
  ∀ (w : Word) (r q : Word × Word), r ∈ opcodeRows → q ∈ opcodeRows →
    w &&& r.2 = r.1 → w &&& q.2 = q.1 → r = q

/-! ## The step, the cycle and halts -/

/-- In a session, `Active`, with no other command waiting and `PC` within the fetch bound: if the two
bytes at `PC`, the first the high byte, decode to `i`, a step is `exec i`, in the state whose event list
is empty and whose result is `Ok` (R41, R49, R52; the high byte first: D3, log 13, an odd `PC` too: decided, D5,
the model's queue: log 1, events and result: log 5). -/
def Obligations.StepRunsTheDecodedInstruction : Prop :=
  ∀ (s : State) (i : Instr),
    s.loaded = true → s.pending = [] → s.mode = .active → s.pc.toNat + 1 < 4096 →
    decode (s.readByte s.pc.toNat ++ s.readByte (s.pc.toNat + 1)) = .ok i →
    step s = exec i { s with events := [], result := .ok }

/-- A step takes the oldest command the host has issued, `EmulateCycle` where it has issued none (the
model's queue, log 1), and `Step()` has exactly the effect of `EmulateCycle` in every state (R25,
R62; `Step`: decided, D7). -/
def Obligations.StepTakesTheOldestCommand : Prop :=
  (∀ (s : State) (c : Command) (rest : List Command),
    s.pending = c :: rest → step s = runCommand c { s with pending := rest }) ∧
  (∀ s : State, s.pending = [] → step s = runCommand .emulateCycle s) ∧
  ∀ s : State, runCommand .singleStep s = runCommand .emulateCycle s

/-- The checks of a cycle before its instruction: `PC + 1 >= 4096` halts with `FetchOutOfBounds(PC)`
whatever memory and stack hold; within the bound, a word that does not decode halts with
`UnknownOpcode` of that word (R41, R49, R53, R57, R103; the bound: decided, D4, the order: D32, exact match: D6,
an odd `PC`: D5, the high byte first: D3, log 13). -/
def Obligations.CycleHaltsOnBadFetchThenOnUnknownWord : Prop :=
  (∀ s : State, s.loaded = true → s.mode = .active → 4096 ≤ s.pc.toNat + 1 →
    runCommand .emulateCycle s = .next (s.halt (.fetchOutOfBounds s.pc))) ∧
  ∀ (s : State) (w : Word), s.loaded = true → s.mode = .active → s.pc.toNat + 1 < 4096 →
    w = s.readByte s.pc.toNat ++ s.readByte (s.pc.toNat + 1) → (∀ i, decode w ≠ .ok i) →
    runCommand .emulateCycle s = .next (s.halt (.unknownOpcode w))

/-- In `Halted(reason)` a cycle changes no state, emits no event and returns the reason (R102). -/
def Obligations.HaltedCycleReturnsTheReasonOnly : Prop :=
  ∀ (s : State) (r : HaltReason), s.loaded = true → s.mode = .halted r →
    runCommand .emulateCycle s = .next { s with events := [], result := .error r }

/-- In `WaitingForKey(x)` a cycle writes the latched key to `Vx`, clears the latch and returns to
`Active`, running no instruction; with no key latched it changes nothing (R96; decided, D8). -/
def Obligations.WaitingCycleTakesTheLatchedKey : Prop :=
  (∀ (s : State) (x : Reg) (k : KeyCode),
    s.loaded = true → s.mode = .waitingForKey x → s.wake = some k →
    ∃ t, runCommand .emulateCycle s = .next t ∧ (t.getV x).toNat = k.val ∧
      KeepsRegsExcept [x] s t ∧ KeepsMemory s t ∧
      t = { s with v := t.v, mode := .active, wake := none, events := [], result := .ok }) ∧
  ∀ (s : State) (x : Reg), s.loaded = true → s.mode = .waitingForKey x → s.wake = none →
    runCommand .emulateCycle s = .next { s with events := [], result := .ok }

/-- Every halt of an instruction is precise: nothing changes but the mode, the event list, which is
empty, and the result, which is the reason (R101; decided, D16). -/
def Obligations.HaltsOfInstructionsArePrecise : Prop :=
  ∀ (i : Instr) (s t : State) (r : HaltReason),
    exec i s = .next t → t.mode = .halted r → s.mode ≠ .halted r →
    t = { s with mode := .halted r, events := [], result := .error r }

/-- The only reasons an instruction halts for, and which instruction halts for which (R100; the recorded values
and KeyIndexOutOfRange: decided, D28, D17, the lowest address: D32). -/
def Obligations.EachHaltReasonHasItsInstructions : Prop :=
  ∀ (i : Instr) (s t : State) (r : HaltReason),
    exec i s = .next t → t.mode = .halted r → s.mode = .active →
    (r = .stackOverflow ∧ s.stack.length ≥ 16 ∧ ∃ nnn, i = .call nnn) ∨
    (r = .stackUnderflow ∧ s.stack = [] ∧ i = .ret) ∨
    (∃ k, r = .keyIndexOutOfRange k ∧ 15 < k.toNat ∧ ∃ x, k = s.getV x ∧ (i = .skp x ∨ i = .sknp x)) ∨
    (∃ a, r = .outOfBounds a ∧ 4096 ≤ a ∧
      ((∃ x y n, i = .drw x y n ∧ LowestBad s.i.toNat n.toNat a) ∨
       (∃ x, i = .ldBcd x ∧ LowestBad s.i.toNat 3 a) ∨
       (∃ x, i = .storeRegs x ∧ LowestBad s.i.toNat (x.val + 1) a) ∨
       ∃ x, i = .loadRegs x ∧ LowestBad s.i.toNat (x.val + 1) a))

/-- Every instruction, in every state, answers a next state: the model stops on none. -/
def Obligations.EveryInstructionAnswersANextState : Prop :=
  ∀ (i : Instr) (s : State), ∃ t, exec i s = .next t

/-- In a session every step answers a next state, in a session, with the same parameters; before the first
`Load` only `Load` has a step, and it opens a session (R119, R125; no step before it: decided, D37, log 7, the
queue and the parameters in State: log 1, log 2). -/
def Obligations.OnlyCommandsBeforeTheFirstLoadStop : Prop :=
  (∀ s : State, s.loaded = true → ∃ t, step s = .next t ∧ t.loaded = true ∧ t.params = s.params) ∧
  (∀ (s : State) (image : List Byte), s.loaded = false →
    ∃ t, runCommand (.load image) s = .next t ∧ t.loaded = true) ∧
  ∀ (s : State) (c : Command), s.loaded = false → (∀ image, c ≠ .load image) →
    runCommand c s = .fault .noSession

/-! ## Invariant and reset -/

/-- The invariant is kept by every step, and its memory clause by every single write: memory stays inside 4096 bytes (R29) in the model's canonical list (log
9); stack depth and entries (R13); `PC` bound (R12); the latch only in a wait (R20; decided, D8, log 21); the
font below the program (R5; D19); the image fits (R119). -/
def Obligations.StepKeepsTheInvariant : Prop :=
  (∀ s t : State, s.Inv → step s = .next t → t.Inv) ∧
  ∀ (s t : State) (a : Nat) (v : Byte), s.memWf → s.memWrite a v = .ok t → t.memWf

/-- The state right after reset meets the invariant. Its values are those of R28; its FONT_BASE (log 2), its
empty image (log 8) and the empty memory list (log 9) are the model's choice. -/
def Obligations.ResetStateMeetsTheInvariant : Prop := State.reset.Inv

/-- The values after reset (R28): registers, `I`, timers 0, `PC` at 0x200, stack empty, display clear, no
key held, `Active`, no key latched, and memory as R48 gives it for the empty image (timers and keys: decided,
D35, zero: D23, font bytes: D20). The parameters and the empty image are the model's choice (log 2, log 8). -/
def Obligations.ResetStateHasTheSpecifiedValues : Prop :=
  (∀ r, State.reset.getV r = 0) ∧ State.reset.i = 0 ∧ State.reset.pc = 0x200 ∧
  State.reset.stack = [] ∧ State.reset.dt = 0 ∧ State.reset.st = 0 ∧
  (∀ x y, State.reset.disp.pixel x y = false) ∧ (∀ k, State.reset.key k = false) ∧
  State.reset.mode = .active ∧ State.reset.wake = none ∧
  ∀ a, State.reset.readByte a = postLoadByte State.reset.params State.reset.image a

/-- `Load` of an image of at most 3584 bytes, in every mode and before any session, leaves every piece of
state as R28 gives it and memory as R48 does: the font at FONT_BASE, the image from 0x200, zero elsewhere;
no event, result `Ok` (R119; zero and font bytes: decided, D23, D20; the parameters and the queue are the
model's, log 1, log 2). -/
def Obligations.LoadStartsAFreshSession : Prop :=
  ∀ (s : State) (image : List Byte), s.params.wf = true → image.length ≤ 3584 →
    ∃ t, runCommand (.load image) s = .next t ∧
      t = { State.reset with
            image := image, params := s.params, draws := t.draws, pending := s.pending } ∧
      t.events = [] ∧ t.result = .ok ∧
      (∀ d r, d < 16 → r < 5 →
        t.readByte (s.params.fontBase + 5 * d + r) = fontData.getD (5 * d + r) 0) ∧
      (∀ k, k < image.length → t.readByte (0x200 + k) = image.getD k 0) ∧
      ∀ a, ¬ (s.params.fontBase ≤ a ∧ a < s.params.fontBase + 80) →
        ¬ (0x200 ≤ a ∧ a < 0x200 + image.length) → t.readByte a = 0

/-- `Load` of a larger image leaves the fresh session of the empty image, halted with `ImageTooLarge`,
which is the result (R120; decided, D25; the parameters and the queue are the model's, log 1, log 2). -/
def Obligations.LoadOfATooLargeImageHalts : Prop :=
  ∀ (s : State) (image : List Byte), 3584 < image.length →
    ∃ t, runCommand (.load image) s = .next t ∧
      t = { State.reset with
            mode := .halted .imageTooLarge, result := .error .imageTooLarge
            params := s.params, draws := t.draws, pending := s.pending } ∧
      ∀ a, t.readByte a = postLoadByte s.params [] a

/-- `Reset` restores the post-load state of the session image, memory included, with no event and result
`Ok`; it does the same in every mode and whatever key is latched (R122, R123; memory: decided, D24; the
parameters and the queue are the model's, log 1, log 2). -/
def Obligations.ResetRestoresThePostLoadState : Prop :=
  (∀ s : State, s.loaded = true →
    ∃ t, runCommand .reset s = .next t ∧
      t = { State.reset with
            image := s.image, params := s.params, draws := t.draws, pending := s.pending } ∧
      ∀ a, t.readByte a = postLoadByte s.params s.image a) ∧
  ∀ (s : State) (m : Mode) (w : Option KeyCode), s.loaded = true →
    runCommand .reset { s with mode := m, wake := w } = runCommand .reset s

/-! ## Timers, keys and dumps -/

/-- `Tick` takes each timer that is not 0 down by one, in every mode, signals `Beep` exactly when the sound
timer was not 0, and changes nothing else (R107, R108; every mode: decided, D26, beeps: D27). -/
def Obligations.TickStepsBothTimers : Prop :=
  ∀ s : State, s.loaded = true →
    ∃ t, runCommand .tick s = .next t ∧ t.dt.toNat = s.dt.toNat - 1 ∧ t.st.toNat = s.st.toNat - 1 ∧
      t.events = (if s.st = 0 then [] else [.beep]) ∧ t.result = .ok ∧ KeepsMemory s t ∧
      t = { s with dt := t.dt, st := t.st, events := t.events, result := t.result }

/-- After `N` ticks from `DT = D`, `DT = max(0, D - N)`, and the same for `ST`; the next tick beeps exactly
when `N` is below the sound timer's start, so `Beep` comes on the first `min(ST, ...)` ticks (R107, R108; the
tick from 1 to 0 beeps too: decided, D27, ticks in every mode: D26; the queue is the model's, log 1). -/
def Obligations.TicksCountDownAndStayAtZero : Prop :=
  ∀ (s : State) (n : Nat) (rest : List Command),
    s.loaded = true → s.pending = List.replicate n .tick ++ .tick :: rest →
    ∃ t u, core.run n s = .next t ∧ step t = .next u ∧
      t.dt.toNat = s.dt.toNat - n ∧ t.st.toNat = s.st.toNat - n ∧
      u.events = (if n < s.st.toNat then [.beep] else []) ∧
      t = { s with dt := t.dt, st := t.st, pending := .tick :: rest
                   events := t.events, result := t.result }

/-- `KeyDown` of a code 0..15 sets its flag in every mode; it latches the code exactly when a key wait lasts
and no key is latched yet; nothing else changes (R109; decided, D8, D26). -/
def Obligations.KeyDownSetsItsFlagAndLatchesTheFirst : Prop :=
  ∀ (s : State) (code : KeyCode), s.loaded = true →
    ∃ t, runCommand (.keyDown code.val) s = .next t ∧
      (∀ k, t.key k = if k = code then true else s.key k) ∧
      ((∃ x, s.mode = .waitingForKey x) → s.wake = none → t.wake = some code) ∧
      ((∀ x, s.mode ≠ .waitingForKey x) ∨ s.wake ≠ none → t.wake = s.wake) ∧
      KeepsMemory s t ∧
      t = { s with keys := t.keys, wake := t.wake, events := [], result := .ok }

/-- `KeyUp` of a code 0..15 clears its flag, in every mode, and changes nothing else, the wake latch included (R110;
every mode: R102, decided, D26, the latch kept: decided, D8, log 21); a code above 15 returns `InvalidKeyCode` and
changes no state (R111; codes as natural numbers: log 18, events and result: log 5). -/
def Obligations.KeyUpClearsItsFlagAndBadCodesAreDropped : Prop :=
  (∀ (s : State) (code : KeyCode), s.loaded = true →
    ∃ t, runCommand (.keyUp code.val) s = .next t ∧
      (∀ k, t.key k = if k = code then false else s.key k) ∧ t.wake = s.wake ∧ KeepsMemory s t ∧
      t = { s with keys := t.keys, events := [], result := .ok }) ∧
  ∀ (s : State) (code : Nat), s.loaded = true → 15 < code →
    runCommand (.keyDown code) s = .next { s with events := [], result := .invalidKeyCode } ∧
    runCommand (.keyUp code) s = .next { s with events := [], result := .invalidKeyCode }

/-- `DumpDisplay` returns the 2048 pixels, element `y*64 + x` being pixel `(x, y)`, changes no state and
emits no event (R113), in every mode (R102; decided, D26; axes: from general knowledge, log 16). -/
def Obligations.DumpDisplayIsRowMajor : Prop :=
  ∀ s : State, s.loaded = true →
    ∃ pixels, runCommand .dumpDisplay s = .next { s with events := [], result := .display pixels } ∧
      pixels.length = 2048 ∧
      ∀ (x : Fin 64) (y : Fin 32), pixels[y.val * 64 + x.val]? = some (s.disp.pixel x y)

/-- `DumpMemory` returns the 4096 bytes in address order and `DumpCpu` the registers, `SP` and the stack
entries, the timers and the mode; neither changes any state or emits an event, in any mode (R114; the last
three fields: decided, D38). -/
def Obligations.DumpsOfMemoryAndCpuReadOnly : Prop :=
  ∀ s : State, s.loaded = true →
    (∃ bytes, runCommand .dumpMemory s = .next { s with events := [], result := .memory bytes } ∧
      bytes.length = 4096 ∧ ∀ a, a < 4096 → bytes[a]? = some (s.readByte a)) ∧
    runCommand .dumpCpu s = .next
      { s with
        events := []
        result := .cpu { v := s.v, i := s.i, pc := s.pc, sp := s.stack.length, stack := s.stack
                         dt := s.dt, st := s.st, mode := s.mode } }

/-- From `Halted(reason)` no sequence of cycles, single steps, ticks, key events and dumps leaves the halt or
changes a register, `I`, `PC`, the stack, memory or the display: only `Reset` or `Load` does (R102; ticks and
keys still act: decided, D26). -/
def Obligations.HaltLastsUntilResetOrLoad : Prop :=
  ∀ (s : State) (r : HaltReason) (cs : List Command),
    s.loaded = true → s.mode = .halted r → (∀ c ∈ cs, c.keepsSession = true) →
    ∃ t, core.run cs.length (s.withPending cs) = .next t ∧ t.mode = .halted r ∧
      t = { s with dt := t.dt, st := t.st, keys := t.keys, pending := []
                   events := t.events, result := t.result }

/-- A key wait with no key latched ends with the first key of the wait: whatever ticks, key events and dumps
follow that `KeyDown`, the next cycle writes its code to `Vx` and returns to `Active` at the same `PC`,
running no instruction (R95, R96, R109, R110; decided, D8). -/
def Obligations.KeyWaitEndsWithItsFirstKey : Prop :=
  ∀ (s : State) (x : Reg) (code : KeyCode) (cs : List Command),
    s.loaded = true → s.mode = .waitingForKey x → s.wake = none →
    (∀ c ∈ cs, c.betweenCycles = true) →
    ∃ t, core.run (cs.length + 2)
        (s.withPending (.keyDown code.val :: (cs ++ [.emulateCycle]))) = .next t ∧
      t.mode = .active ∧ t.wake = none ∧ (t.getV x).toNat = code.val ∧ KeepsRegsExcept [x] s t ∧
      t = { s with v := t.v, mode := .active, dt := t.dt, st := t.st, keys := t.keys, pending := []
                   events := t.events, result := t.result }

/-- Until a `KeyDown` of a code 0..15 a key wait lasts, without a limit: after any sequence of cycles, single
steps, ticks, key-ups, dropped key-downs and dumps, and then any number of cycles, the mode is still the wait,
no key is latched, and nothing but the timers, released key flags and the last command's events and result has
changed (R95, R96, R111, R131; the latch: decided, D8, ticks and key-ups in the wait: D26; the queue is the
model's, log 1). -/
def Obligations.KeyWaitLastsWithoutAKeyEvent : Prop :=
  ∀ (s : State) (x : Reg) (cs : List Command) (n : Nat),
    s.loaded = true → s.mode = .waitingForKey x → s.wake = none →
    (∀ c ∈ cs, c.latchesNoKey = true) →
    ∃ t, core.run (cs.length + n) (s.withPending cs) = .next t ∧
      t.mode = .waitingForKey x ∧ t.wake = none ∧ (∀ k, t.key k = true → s.key k = true) ∧
      t = { s with dt := t.dt, st := t.st, keys := t.keys, pending := []
                   events := t.events, result := t.result }

/-! ## Memory primitives -/

/-- `MemRead` returns the byte of a valid address and `MemWrite` changes that byte alone; at 4096 and above both
raise `OutOfBounds` of the address and write nothing (R35, R36). -/
def Obligations.MemoryReadsBackWhatWasWritten : Prop :=
  (∀ (s : State) (a : Nat), s.memRead a =
    if 4096 ≤ a then .error (.outOfBounds a) else .ok (s.readByte a)) ∧
  (∀ (s : State) (a : Nat) (v : Byte), 4096 ≤ a → s.memWrite a v = .error (.outOfBounds a)) ∧
  ∀ (s : State) (a : Nat) (v : Byte), a < 4096 →
    ∃ t, s.memWrite a v = .ok t ∧ t.readByte a = v ∧ KeepsMemoryOutside a 1 s t ∧
      t = { s with mem := t.mem }

/-! ## Display instructions -/

/-- `CLS`, word 00E0: every pixel 0, `Repaint` signalled, `PC + 2`, nothing else changed (R63; the signal
whether or not a pixel changed: decided, D22). Word patterns: D2, log 12. -/
def Obligations.ClsClearsTheDisplay : Prop :=
  decode 0x00E0#16 = .ok .cls ∧
  ∀ s : State, ∃ t, exec .cls s = .next t ∧ (∀ x y, t.disp.pixel x y = false) ∧
    t.events = s.events ++ [.repaint] ∧ t.pc = s.pc + 2#16 ∧ KeepsMemory s t ∧
    t = { s with disp := t.disp, events := t.events, pc := t.pc }

/-- `DRW Vx, Vy, n` with all its `n` bytes in memory: each pixel the sprite covers is flipped and no other, `VF`
is 1 exactly when a covered pixel was 1, `Repaint` is signalled, `PC + 2`, nothing else changes; with a byte
outside memory it halts with the lowest bad address (R64; clipped rows are read and `n = 0`: decided, D21,
`Repaint` whether or not a pixel changed: D22, bit order and axes: from general knowledge, log 15, log 16). Word
patterns: D2, log 12. -/
def Obligations.DrwFlipsExactlyTheCoveredPixels : Prop :=
  (∀ (x y : Reg) (n : BitVec 4), decode (wordXYN 0xD#4 x y n) = .ok (.drw x y n)) ∧
  (∀ (x y : Reg) (n : BitVec 4) (s : State), n = 0 ∨ s.i.toNat + n.toNat ≤ 4096 →
    ∃ t, exec (.drw x y n) s = .next t ∧
      (∀ px py, spriteCovers s s.i.toNat ((s.getV x).toNat % 64) ((s.getV y).toNat % 32) n.toNat px py →
        t.disp.pixel px py = !s.disp.pixel px py) ∧
      (∀ px py, ¬ spriteCovers s s.i.toNat ((s.getV x).toNat % 64) ((s.getV y).toNat % 32) n.toNat px py →
        t.disp.pixel px py = s.disp.pixel px py) ∧
      ((∃ px py, s.disp.pixel px py = true ∧
          spriteCovers s s.i.toNat ((s.getV x).toNat % 64) ((s.getV y).toNat % 32) n.toNat px py) →
        t.getV vf = 1) ∧
      ((¬ ∃ px py, s.disp.pixel px py = true ∧
          spriteCovers s s.i.toNat ((s.getV x).toNat % 64) ((s.getV y).toNat % 32) n.toNat px py) →
        t.getV vf = 0) ∧
      KeepsRegsExcept [vf] s t ∧ KeepsMemory s t ∧
      t.events = s.events ++ [.repaint] ∧ t.pc = s.pc + 2#16 ∧
      t = { s with v := t.v, disp := t.disp, events := t.events, pc := t.pc }) ∧
  ∀ (x y : Reg) (n : BitVec 4) (s : State) (bad : Nat), LowestBad s.i.toNat n.toNat bad →
    exec (.drw x y n) s = .next (s.halt (.outOfBounds bad))

/-- Drawing the same sprite at the same place twice restores the display, for coordinates not kept in `VF`
(R64). -/
def Obligations.DrwTwiceRestoresTheDisplay : Prop :=
  ∀ (x y : Reg) (n : BitVec 4) (s t u : State), x ≠ vf → y ≠ vf →
    (n = 0 ∨ s.i.toNat + n.toNat ≤ 4096) →
    exec (.drw x y n) s = .next t → exec (.drw x y n) t = .next u → u.disp = s.disp

/-! ## Control flow -/

/-- `Push(v)` puts `v` after the entries there are, `Pop()` takes the last one off and returns it, and nothing
else changes; `Push` at 16 entries raises `StackOverflow`, `Pop` at none `StackUnderflow` (R14). -/
def Obligations.StackPrimitivesPushAndPop : Prop :=
  (∀ (s : State) (v : Word), s.stack.length = 16 → s.push v = .error .stackOverflow) ∧
  (∀ (s : State) (v : Word), s.stack.length < 16 →
    ∃ t, s.push v = .ok t ∧ t.stack = s.stack ++ [v] ∧ t.stack.length = s.stack.length + 1 ∧
      KeepsMemory s t ∧ t = { s with stack := t.stack }) ∧
  (∀ s : State, s.stack = [] → s.pop = .error .stackUnderflow) ∧
  ∀ (s : State) (older : List Word) (v : Word), s.stack = older ++ [v] →
    ∃ t, s.pop = .ok (v, t) ∧ t.stack = older ∧ t.stack.length + 1 = s.stack.length ∧
      KeepsMemory s t ∧ t = { s with stack := t.stack }

/-- `CALL nnn`, word 2nnn: with fewer than 16 entries the address after the `CALL` is pushed and `PC` is the
target, nothing else changed; with 16 entries it halts with `StackOverflow` (R67; the pushed value: decided,
D9). Word patterns: D2, log 12. -/
def Obligations.CallPushesTheReturnAddress : Prop :=
  ∀ nnn : BitVec 12, decode (wordNNN 0x2#4 nnn) = .ok (.call nnn) ∧
    (∀ s : State, s.stack.length < 16 →
      ∃ t, exec (.call nnn) s = .next t ∧ t.stack = s.stack ++ [s.pc + 2#16] ∧
        t.pc.toNat = nnn.toNat ∧ KeepsMemory s t ∧ t = { s with stack := t.stack, pc := t.pc }) ∧
    ∀ s : State, s.stack.length = 16 → exec (.call nnn) s = .next (s.halt .stackOverflow)

/-- `RET`, word 00EE: the newest entry is popped into `PC`, with no further advance, nothing else changed;
with an empty stack it halts with `StackUnderflow` (R65). Word patterns: D2, log 12. -/
def Obligations.RetPopsIntoPc : Prop :=
  decode 0x00EE#16 = .ok .ret ∧
  (∀ (s : State) (older : List Word) (a : Word), s.stack = older ++ [a] →
    ∃ t, exec .ret s = .next t ∧ t.pc = a ∧ t.stack = older ∧ KeepsMemory s t ∧
      t = { s with stack := t.stack, pc := t.pc }) ∧
  ∀ s : State, s.stack = [] → exec .ret s = .next (s.halt .stackUnderflow)

/-- A `RET` in any state that holds the stack a `CALL` left returns to the instruction after that `CALL`, with
the stack as before it (R65, R67; "CALL then RET returns `PC` to the instruction immediately after the
CALL"). -/
def Obligations.RetReturnsBehindTheCall : Prop :=
  ∀ (nnn : BitVec 12) (s t u : State), s.stack.length < 16 → exec (.call nnn) s = .next t →
    u.stack = t.stack →
    ∃ w, exec .ret u = .next w ∧ w.pc = s.pc + 2#16 ∧ w.stack = s.stack ∧
      w = { u with stack := w.stack, pc := w.pc }

/-- `SE Vx, nn` (3xnn) and `SNE Vx, nn` (4xnn): `PC + 4` when `Vx` equals, respectively differs from, `nn`,
else `PC + 2`; nothing else changes (R68, R69). Word patterns: D2, log 12. -/
def Obligations.ImmediateSkips : Prop :=
  ∀ (x : Reg) (nn : Byte),
    decode (wordXNN 0x3#4 x nn) = .ok (.seImm x nn) ∧
    decode (wordXNN 0x4#4 x nn) = .ok (.sneImm x nn) ∧
    (∀ s : State, ∃ t, exec (.seImm x nn) s = .next t ∧
      t.pc = (if s.getV x = nn then s.pc + 4#16 else s.pc + 2#16) ∧ OnlyPcChanges s t) ∧
    ∀ s : State, ∃ t, exec (.sneImm x nn) s = .next t ∧
      t.pc = (if s.getV x = nn then s.pc + 2#16 else s.pc + 4#16) ∧ OnlyPcChanges s t

/-- `SE Vx, Vy` (5xy0) and `SNE Vx, Vy` (9xy0): `PC + 4` when the registers are equal, respectively differ, else
`PC + 2`; nothing else changes; the words 5xyN and 9xyN with `N` not 0 are unknown (R54, R55, R56, R70, R71;
exact match: decided, D6). Word patterns: D2, log 12. -/
def Obligations.RegisterSkips : Prop :=
  ∀ x y : Reg,
    decode (wordXYN 0x5#4 x y 0x0#4) = .ok (.seReg x y) ∧
    decode (wordXYN 0x9#4 x y 0x0#4) = .ok (.sneReg x y) ∧
    (∀ n : BitVec 4, n ≠ 0 →
      decode (wordXYN 0x5#4 x y n) = .error (.unknownOpcode (wordXYN 0x5#4 x y n)) ∧
      decode (wordXYN 0x9#4 x y n) = .error (.unknownOpcode (wordXYN 0x9#4 x y n))) ∧
    (∀ s : State, ∃ t, exec (.seReg x y) s = .next t ∧
      t.pc = (if s.getV x = s.getV y then s.pc + 4#16 else s.pc + 2#16) ∧ OnlyPcChanges s t) ∧
    ∀ s : State, ∃ t, exec (.sneReg x y) s = .next t ∧
      t.pc = (if s.getV x = s.getV y then s.pc + 2#16 else s.pc + 4#16) ∧ OnlyPcChanges s t

/-- `JP nnn`, word 1nnn: `PC` is the 12-bit target, nothing else changes. `JP V0, nnn`, word Bnnn: `PC` is the
exact sum `nnn + V0`, at most 0x10FE, not reduced to 12 bits; nothing else changes (R66, R72; no mask: decided,
D14). Word patterns: D2, log 12. -/
def Obligations.JumpsSetPcToTheirTarget : Prop :=
  (∀ nnn : BitVec 12, decode (wordNNN 0x1#4 nnn) = .ok (.jp nnn) ∧
    ∀ s : State, ∃ t, exec (.jp nnn) s = .next t ∧ t.pc.toNat = nnn.toNat ∧ OnlyPcChanges s t) ∧
  ∀ nnn : BitVec 12, decode (wordNNN 0xB#4 nnn) = .ok (.jpV0 nnn) ∧
    ∀ s : State, ∃ t, exec (.jpV0 nnn) s = .next t ∧
      t.pc.toNat = nnn.toNat + (s.getV 0).toNat ∧ t.pc.toNat ≤ 0x10FE ∧ OnlyPcChanges s t

/-! ## Registers and arithmetic -/

/-- `LD Vx, nn` (6xnn), `ADD Vx, nn` (7xnn, wraps mod 256, no flag) and `LD Vx, Vy` (8xy0): `Vx` takes its
value, `PC + 2`, nothing else changes, `VF` only as `Vx` (R54, R74, R75, R76, R77; `VF` kept: decided, D11).
Word patterns: D2, log 12. -/
def Obligations.LoadsAndImmediateAdd : Prop :=
  (∀ (x : Reg) (nn : Byte), decode (wordXNN 0x6#4 x nn) = .ok (.ldImm x nn) ∧
    ∀ s : State, ∃ t, exec (.ldImm x nn) s = .next t ∧ t.getV x = nn ∧
      t.pc = s.pc + 2#16 ∧ RegisterFrame [x] s t) ∧
  (∀ (x : Reg) (nn : Byte), decode (wordXNN 0x7#4 x nn) = .ok (.addImm x nn) ∧
    ∀ s : State, ∃ t, exec (.addImm x nn) s = .next t ∧
      (t.getV x).toNat = ((s.getV x).toNat + nn.toNat) % 256 ∧
      t.pc = s.pc + 2#16 ∧ RegisterFrame [x] s t) ∧
  ∀ x y : Reg, decode (wordXYN 0x8#4 x y 0x0#4) = .ok (.ldReg x y) ∧
    ∀ s : State, ∃ t, exec (.ldReg x y) s = .next t ∧ t.getV x = s.getV y ∧
      t.pc = s.pc + 2#16 ∧ RegisterFrame [x] s t

/-- `OR`, `AND`, `XOR Vx, Vy` (8xy1, 8xy2, 8xy3): each bit of `Vx` is the operation of the operands' bits,
`PC + 2`, nothing else changes, `VF` only as `Vx` (R78, R79, R80; `VF` kept: decided, D11). Word
patterns: D2, log 12. -/
def Obligations.LogicOperationsKeepTheFlag : Prop :=
  ∀ x y : Reg,
    decode (wordXYN 0x8#4 x y 0x1#4) = .ok (.orReg x y) ∧
    decode (wordXYN 0x8#4 x y 0x2#4) = .ok (.andReg x y) ∧
    decode (wordXYN 0x8#4 x y 0x3#4) = .ok (.xorReg x y) ∧
    ∀ s : State,
      (∃ t, exec (.orReg x y) s = .next t ∧
        (∀ k, (t.getV x).getLsbD k = ((s.getV x).getLsbD k || (s.getV y).getLsbD k)) ∧
        t.pc = s.pc + 2#16 ∧ RegisterFrame [x] s t) ∧
      (∃ t, exec (.andReg x y) s = .next t ∧
        (∀ k, (t.getV x).getLsbD k = ((s.getV x).getLsbD k && (s.getV y).getLsbD k)) ∧
        t.pc = s.pc + 2#16 ∧ RegisterFrame [x] s t) ∧
      ∃ t, exec (.xorReg x y) s = .next t ∧
        (∀ k, (t.getV x).getLsbD k = ((s.getV x).getLsbD k ^^ (s.getV y).getLsbD k)) ∧
        t.pc = s.pc + 2#16 ∧ RegisterFrame [x] s t

/-- `ADD Vx, Vy` (8xy4): `Vx` is the sum mod 256 unless `x = 0xF`, `VF` is always the carry, 1 if the sum is
above 255 and else 0; operands are read before the writes; `PC + 2`, nothing else changes (R54, R74, R81;
operands first and the flag last: decided, D10). Word patterns: D2, log 12. -/
def Obligations.AddSetsSumThenCarry : Prop :=
  ∀ x y : Reg, decode (wordXYN 0x8#4 x y 0x4#4) = .ok (.addReg x y) ∧
    ∀ s : State, ∃ t, exec (.addReg x y) s = .next t ∧
      (x ≠ vf → (t.getV x).toNat = ((s.getV x).toNat + (s.getV y).toNat) % 256) ∧
      t.getV vf = (if 255 < (s.getV x).toNat + (s.getV y).toNat then 1 else 0) ∧
      t.pc = s.pc + 2#16 ∧ RegisterFrame [x, vf] s t

/-- `SUB Vx, Vy` (8xy5) and `SUBN Vx, Vy` (8xy7): `Vx` is the difference mod 256 unless `x = 0xF`, `VF` is
always the no-borrow flag, 1 on equal operands; `PC + 2`, nothing else changes (R54, R74, R82, R84; operands
first and the flag last: decided, D10). Word patterns: D2, log 12. -/
def Obligations.SubtractionsSetDifferenceThenNoBorrow : Prop :=
  ∀ x y : Reg,
    decode (wordXYN 0x8#4 x y 0x5#4) = .ok (.sub x y) ∧
    decode (wordXYN 0x8#4 x y 0x7#4) = .ok (.subn x y) ∧
    (∀ s : State, ∃ t, exec (.sub x y) s = .next t ∧
      (x ≠ vf → (t.getV x).toNat = (256 + (s.getV x).toNat - (s.getV y).toNat) % 256) ∧
      t.getV vf = (if (s.getV y).toNat ≤ (s.getV x).toNat then 1 else 0) ∧
      t.pc = s.pc + 2#16 ∧ RegisterFrame [x, vf] s t) ∧
    ∀ s : State, ∃ t, exec (.subn x y) s = .next t ∧
      (x ≠ vf → (t.getV x).toNat = (256 + (s.getV y).toNat - (s.getV x).toNat) % 256) ∧
      t.getV vf = (if (s.getV x).toNat ≤ (s.getV y).toNat then 1 else 0) ∧
      t.pc = s.pc + 2#16 ∧ RegisterFrame [x, vf] s t

/-- `SHR Vx` (8xy6) and `SHL Vx` (8xyE), any `y`, which is not read: `Vx` is shifted by one with a 0 shifted
in unless `x = 0xF`, `VF` is always the bit shifted out; `PC + 2`, nothing else changes (R54, R74, R83, R85; the
flag last: decided, D10).
Word patterns: D2, log 12. -/
def Obligations.ShiftsByOneSetTheBitShiftedOut : Prop :=
  ∀ x y : Reg,
    decode (wordXYN 0x8#4 x y 0x6#4) = .ok (.shr x y) ∧
    decode (wordXYN 0x8#4 x y 0xE#4) = .ok (.shl x y) ∧
    (∀ s : State, ∃ t, exec (.shr x y) s = .next t ∧
      (x ≠ vf → (t.getV x).toNat = (s.getV x).toNat / 2) ∧
      (t.getV vf).toNat = (s.getV x).toNat % 2 ∧
      t.pc = s.pc + 2#16 ∧ RegisterFrame [x, vf] s t) ∧
    ∀ s : State, ∃ t, exec (.shl x y) s = .next t ∧
      (x ≠ vf → (t.getV x).toNat = (s.getV x).toNat * 2 % 256) ∧
      (t.getV vf).toNat = (s.getV x).toNat / 128 ∧
      t.pc = s.pc + 2#16 ∧ RegisterFrame [x, vf] s t

/-- `RND Vx, nn` (Cxnn): `Vx` is the next free byte AND `nn`, so no bit outside `nn` is set; the draw is used
up; `PC + 2`, nothing else changes (R86, R21; a free byte: decided, D29, log 3). Nothing is claimed of the
byte drawn. Word patterns: D2, log 12. -/
def Obligations.RndMasksAFreeByte : Prop :=
  ∀ (x : Reg) (nn : Byte), decode (wordXNN 0xC#4 x nn) = .ok (.rnd x nn) ∧
    ∀ s : State, ∃ t, exec (.rnd x nn) s = .next t ∧
      t.getV x = Config.randomByte s.draws &&& nn ∧ t.getV x &&& ~~~nn = 0 ∧ t.draws = s.draws + 1 ∧
      t.pc = s.pc + 2#16 ∧ KeepsRegsExcept [x] s t ∧ KeepsMemory s t ∧
      t = { s with v := t.v, draws := t.draws, pc := t.pc }

/-! ## Index register and memory -/

/-- `LD I, nnn`, word Annn: `I` is the 12-bit value, `PC + 2`, nothing else changes (R54, R87). Word patterns:
D2, log 12. -/
def Obligations.LoadIndexImmediate : Prop :=
  ∀ nnn : BitVec 12, decode (wordNNN 0xA#4 nnn) = .ok (.ldI nnn) ∧
    ∀ s : State, ∃ t, exec (.ldI nnn) s = .next t ∧ t.i.toNat = nnn.toNat ∧ t.pc = s.pc + 2#16 ∧
      KeepsMemory s t ∧ t = { s with i := t.i, pc := t.pc }

/-- `ADD I, Vx` (Fx1E): `I` is the sum mod 65536 and `PC + 2`; without FX1E_SETS_VF nothing else changes, with
it `VF` is 1 if the sum is above 0xFFF and else 0 (R88; width and the flag's meaning: decided, D12).
Word patterns: D2, log 12. -/
def Obligations.AddIndexSetsVfOnlyWhenConfigured : Prop :=
  ∀ x : Reg, decode (wordXNN 0xF#4 x 0x1E#8) = .ok (.addI x) ∧
    ∀ s : State, ∃ t, exec (.addI x) s = .next t ∧
      t.i.toNat = (s.i.toNat + (s.getV x).toNat) % 65536 ∧ t.pc = s.pc + 2#16 ∧
      (s.params.fx1eSetsVf = false → ∀ r, t.getV r = s.getV r) ∧
      (s.params.fx1eSetsVf = true → KeepsRegsExcept [vf] s t ∧
        t.getV vf = (if 0xFFF < s.i.toNat + (s.getV x).toNat then 1 else 0)) ∧
      KeepsMemory s t ∧ t = { s with v := t.v, i := t.i, pc := t.pc }

/-- `LD F, Vx` (Fx29): `I` is `FONT_BASE + 5 * d`, `d` the low nibble of `Vx` or all of it as FONT_DIGIT_POLICY
says, for a font below the program base; after a `Load` the low-nibble form points at glyph `d` in memory; `PC +
2`, nothing else changes (R37, R38, R89; the policy: decided, D18, the base: D19, the glyph bytes: D20, from
general knowledge, log 14). Word patterns: D2, log 12. -/
def Obligations.LoadFontPointsAtTheGlyph : Prop :=
  ∀ x : Reg, decode (wordXNN 0xF#4 x 0x29#8) = .ok (.ldFont x) ∧
    ∀ s : State, s.params.wf = true → ∃ t, exec (.ldFont x) s = .next t ∧
      (s.params.fontDigitPolicy = .lowNibble →
        t.i.toNat = s.params.fontBase + 5 * ((s.getV x).toNat % 16) ∧
        (s.mem = [] → ∀ r, r < 5 →
          t.readByte (t.i.toNat + r) = fontData.getD (5 * ((s.getV x).toNat % 16) + r) 0)) ∧
      (s.params.fontDigitPolicy = .fullByte →
        t.i.toNat = s.params.fontBase + 5 * (s.getV x).toNat) ∧
      t.pc = s.pc + 2#16 ∧ KeepsMemory s t ∧ t = { s with i := t.i, pc := t.pc }

/-- `LD B, Vx` (Fx33): with its three bytes in memory, the hundreds, tens and units of `Vx` are stored at `I`,
`I + 1`, `I + 2`, `PC + 2`, and nothing else changes, `I` included; otherwise it halts with the lowest bad
address and writes nothing (R90). Word patterns: D2, log 12. -/
def Obligations.BcdStoresHundredsTensUnits : Prop :=
  ∀ x : Reg, decode (wordXNN 0xF#4 x 0x33#8) = .ok (.ldBcd x) ∧
    (∀ s : State, s.i.toNat + 3 ≤ 4096 → ∃ t, exec (.ldBcd x) s = .next t ∧
      (t.readByte s.i.toNat).toNat = (s.getV x).toNat / 100 ∧
      (t.readByte (s.i.toNat + 1)).toNat = (s.getV x).toNat / 10 % 10 ∧
      (t.readByte (s.i.toNat + 2)).toNat = (s.getV x).toNat % 10 ∧
      KeepsMemoryOutside s.i.toNat 3 s t ∧ t.pc = s.pc + 2#16 ∧
      t = { s with mem := t.mem, pc := t.pc }) ∧
    ∀ (s : State) (bad : Nat), LowestBad s.i.toNat 3 bad →
      exec (.ldBcd x) s = .next (s.halt (.outOfBounds bad))

/-- `LD [I], Vx` (Fx55): with its `x + 1` bytes in memory, `V0..Vx` are stored from `I` up, `PC + 2`, nothing
else changes; otherwise it halts with the lowest bad address and writes nothing (R91; `I` unchanged: decided,
D13). Word patterns: D2, log 12. -/
def Obligations.StoreRegistersFromIndex : Prop :=
  ∀ x : Reg, decode (wordXNN 0xF#4 x 0x55#8) = .ok (.storeRegs x) ∧
    (∀ s : State, s.i.toNat + (x.val + 1) ≤ 4096 → ∃ t, exec (.storeRegs x) s = .next t ∧
      (∀ k : Reg, k ≤ x → t.readByte (s.i.toNat + k.val) = s.getV k) ∧
      KeepsMemoryOutside s.i.toNat (x.val + 1) s t ∧ t.pc = s.pc + 2#16 ∧
      t = { s with mem := t.mem, pc := t.pc }) ∧
    ∀ (s : State) (bad : Nat), LowestBad s.i.toNat (x.val + 1) bad →
      exec (.storeRegs x) s = .next (s.halt (.outOfBounds bad))

/-- `LD Vx, [I]` (Fx65): with its `x + 1` bytes in memory, `V0..Vx` are loaded from `I` up, `PC + 2`, nothing
else changes; otherwise it halts with the lowest bad address and writes no register (R92; `I` unchanged:
decided, D13). Word patterns: D2, log 12. -/
def Obligations.LoadRegistersFromIndex : Prop :=
  ∀ x : Reg, decode (wordXNN 0xF#4 x 0x65#8) = .ok (.loadRegs x) ∧
    (∀ s : State, s.i.toNat + (x.val + 1) ≤ 4096 → ∃ t, exec (.loadRegs x) s = .next t ∧
      (∀ k : Reg, k ≤ x → t.getV k = s.readByte (s.i.toNat + k.val)) ∧
      (∀ k : Reg, x < k → t.getV k = s.getV k) ∧ KeepsMemory s t ∧ t.pc = s.pc + 2#16 ∧
      t = { s with v := t.v, pc := t.pc }) ∧
    ∀ (s : State) (bad : Nat), LowestBad s.i.toNat (x.val + 1) bad →
      exec (.loadRegs x) s = .next (s.halt (.outOfBounds bad))

/-- Registers stored by `LD [I], Vx` come back by `LD Vx, [I]` from any state with that memory and that `I`
(R91, R92; `I` unchanged: decided, D13). -/
def Obligations.StoredRegistersLoadBack : Prop :=
  ∀ (x : Reg) (s t u : State), s.i.toNat + (x.val + 1) ≤ 4096 → exec (.storeRegs x) s = .next t →
    u.i = t.i → (∀ a, u.readByte a = t.readByte a) →
    ∃ w, exec (.loadRegs x) u = .next w ∧ ∀ k : Reg, k ≤ x → w.getV k = s.getV k

/-- After `LD [I], Vx` or `LD B, Vx` the next cycle runs the word that memory with the stored bytes in it holds
at `PC`, whichever of its two bytes were stored, or halts where that word is unknown: self-modifying code needs
no fence (R46, R91, R90, R41, R57; the high byte first: D3, log 13, an odd `PC`: decided, D5, the empty queue:
log 1). -/
def Obligations.FetchSeesStoredBytes : Prop :=
  ∀ (i : Instr) (bs : List Byte) (s t : State) (w : Word),
    s.loaded = true → s.pending = [] → s.mode = .active →
    (∃ x, i = .storeRegs x ∧ bs = s.regsUpTo x) ∨ (∃ x, i = .ldBcd x ∧ bs = bcdDigits (s.getV x)) →
    s.i.toNat + bs.length ≤ 4096 → exec i s = .next t → t.pc.toNat + 1 < 4096 →
    w = s.byteAfterStore s.i.toNat bs t.pc.toNat ++ s.byteAfterStore s.i.toNat bs (t.pc.toNat + 1) →
    (∀ j, decode w = .ok j → step t = exec j { t with events := [], result := .ok }) ∧
    ((∀ j, decode w ≠ .ok j) → step t = .next (t.halt (.unknownOpcode w)))

/-! ## Input and timers -/

/-- `SKP Vx` (Ex9E) and `SKNP Vx` (ExA1): with `Vx` a key code, or its low nibble under that policy, `PC + 4`
when the key is held, respectively not held, else `PC + 2`, nothing else changed; under the policy `halt` a
value above 15 halts with `KeyIndexOutOfRange` of it (R93, R94; values above 15: decided, D17). Word
patterns: D2, log 12. -/
def Obligations.KeySkipsTestTheNamedKey : Prop :=
  ∀ x : Reg,
    decode (wordXNN 0xE#4 x 0x9E#8) = .ok (.skp x) ∧
    decode (wordXNN 0xE#4 x 0xA1#8) = .ok (.sknp x) ∧
    (∀ (s : State) (k : KeyCode),
      (s.getV x).toNat = k.val ∨
        (s.params.keyIndexPolicy = .lowNibble ∧ (s.getV x).toNat % 16 = k.val) →
      (∃ t, exec (.skp x) s = .next t ∧
        t.pc = (if s.key k = true then s.pc + 4#16 else s.pc + 2#16) ∧ OnlyPcChanges s t) ∧
      ∃ t, exec (.sknp x) s = .next t ∧
        t.pc = (if s.key k = true then s.pc + 2#16 else s.pc + 4#16) ∧ OnlyPcChanges s t) ∧
    ∀ s : State, 15 < (s.getV x).toNat → s.params.keyIndexPolicy = .halt →
      exec (.skp x) s = .next (s.halt (.keyIndexOutOfRange (s.getV x))) ∧
      exec (.sknp x) s = .next (s.halt (.keyIndexOutOfRange (s.getV x)))

/-- `LD Vx, K` (Fx0A): the mode is `WaitingForKey(x)`, no key is latched, a held key not counting, and `PC + 2`
at once; nothing else changes, `Vx` included (R95; decided, D8). Word patterns: D2, log 12. -/
def Obligations.KeyWaitIsEntered : Prop :=
  ∀ x : Reg, decode (wordXNN 0xF#4 x 0x0A#8) = .ok (.ldKey x) ∧
    ∀ s : State, ∃ t, exec (.ldKey x) s = .next t ∧ t.mode = .waitingForKey x ∧ t.wake = none ∧
      t.pc = s.pc + 2#16 ∧ KeepsMemory s t ∧
      t = { s with mode := t.mode, wake := t.wake, pc := t.pc }

/-- `LD Vx, DT` (Fx07): `Vx` is `DT`; `LD DT, Vx` (Fx15): `DT` is `Vx`; `LD ST, Vx` (Fx18): `ST` is `Vx` and no
`Beep` is signalled; `PC + 2`, nothing else changes (R97, R98, R99; no beep: decided, D27). Word patterns: D2, log
12. -/
def Obligations.TimersReadAndWritten : Prop :=
  ∀ x : Reg,
    decode (wordXNN 0xF#4 x 0x07#8) = .ok (.ldFromDt x) ∧
    decode (wordXNN 0xF#4 x 0x15#8) = .ok (.ldDt x) ∧
    decode (wordXNN 0xF#4 x 0x18#8) = .ok (.ldSt x) ∧
    (∀ s : State, ∃ t, exec (.ldFromDt x) s = .next t ∧ t.getV x = s.dt ∧ t.pc = s.pc + 2#16 ∧
      RegisterFrame [x] s t) ∧
    (∀ s : State, ∃ t, exec (.ldDt x) s = .next t ∧ t.dt = s.getV x ∧ t.pc = s.pc + 2#16 ∧
      KeepsMemory s t ∧ t = { s with dt := t.dt, pc := t.pc }) ∧
    ∀ s : State, ∃ t, exec (.ldSt x) s = .next t ∧ t.st = s.getV x ∧ t.events = s.events ∧
      t.pc = s.pc + 2#16 ∧ KeepsMemory s t ∧ t = { s with st := t.st, pc := t.pc }

/-! ## Whole-machine rules -/

/-- Every instruction is exactly 2 bytes: decoding takes two bytes off whatever sequence it is given and leaves the
rest, what it reads from them depends on nothing else (no mode, no following byte, so no length is determined),
fewer than two bytes are no instruction, and the bytes of every instruction are two (R59). -/
def Obligations.EveryInstructionIsTwoBytes : Prop :=
  (∀ (bytes rest : List Byte) (i : Instr), decodeBytes bytes = .ok (i, rest) →
    ∃ first second, bytes = first :: second :: rest) ∧
  (∀ (first second : Byte) (rest rest' : List Byte) (i : Instr),
    decodeBytes (first :: second :: rest) = .ok (i, rest) →
    decodeBytes (first :: second :: rest') = .ok (i, rest')) ∧
  (∀ (bytes : List Byte) (r : Instr × List Byte), bytes.length < 2 → decodeBytes bytes ≠ .ok r) ∧
  ∀ i : Instr, (encodeBytes i).length = 2

/-- Which instruction can change which piece of state. No instruction writes the keys (R18), the session, its
parameters (R22) or the queue; each other piece only the instructions the spec names: registers (R9, R10), `PC`
other than by 2 (R54), `I` (R11), stack (R13), timers (R15), display (R17), mode (R19), latch (R20), draws
(R21), memory (R39), events and result (R24). What the rules decide in it: D8, D11, D12, D13, D16, D22, D27; the
fields for draws, queue, events and result are the model's, log 1, log 3, log 5. -/
def Obligations.EachPieceOfStateHasItsWriters : Prop :=
  ∀ (i : Instr) (s t : State), exec i s = .next t →
    t.keys = s.keys ∧ t.image = s.image ∧ t.loaded = s.loaded ∧ t.params = s.params ∧
    t.pending = s.pending ∧
    (t.disp ≠ s.disp → i = .cls ∨ ∃ x y n, i = .drw x y n) ∧
    (t.dt ≠ s.dt → ∃ x, i = .ldDt x) ∧
    (t.st ≠ s.st → ∃ x, i = .ldSt x) ∧
    (t.stack ≠ s.stack → i = .ret ∨ ∃ nnn, i = .call nnn) ∧
    (t.i ≠ s.i → (∃ nnn, i = .ldI nnn) ∨ (∃ x, i = .addI x) ∨ ∃ x, i = .ldFont x) ∧
    (t.mem ≠ s.mem → (∃ x, i = .ldBcd x) ∨ ∃ x, i = .storeRegs x) ∧
    (t.wake ≠ s.wake → ∃ x, i = .ldKey x) ∧
    (t.draws ≠ s.draws → ∃ x nn, i = .rnd x nn) ∧
    (∀ r, t.getV r ≠ s.getV r → r ∈ writtenRegs s.params i) ∧
    (t.mode ≠ s.mode → (∃ x, i = .ldKey x ∧ t.mode = .waitingForKey x) ∨
      (∃ r, t = s.halt r) ∧ (i = .ret ∨ (∃ nnn, i = .call nnn) ∨ (∃ x y n, i = .drw x y n) ∨
        (∃ x, i = .skp x) ∨ (∃ x, i = .sknp x) ∨ (∃ x, i = .ldBcd x) ∨ (∃ x, i = .storeRegs x) ∨
        ∃ x, i = .loadRegs x)) ∧
    (t.pc ≠ s.pc + 2#16 →
      (t.pc = s.pc + 4#16 ∧ ((∃ x nn, i = .seImm x nn) ∨ (∃ x nn, i = .sneImm x nn) ∨
        (∃ x y, i = .seReg x y) ∨ (∃ x y, i = .sneReg x y) ∨ (∃ x, i = .skp x) ∨ ∃ x, i = .sknp x)) ∨
      i = .ret ∨ (∃ nnn, i = .jp nnn) ∨ (∃ nnn, i = .call nnn) ∨ (∃ nnn, i = .jpV0 nnn) ∨
      ∃ r, t = s.halt r) ∧
    (t.events ≠ s.events →
      (t.events = s.events ++ [.repaint] ∧ (i = .cls ∨ ∃ x y n, i = .drw x y n)) ∨ ∃ r, t = s.halt r) ∧
    (t.result ≠ s.result → ∃ r, t = s.halt r)

/-- No instruction writes `VF` but the flag writers, `ADD I` where the parameter asks for it, and those whose
destination it is (R10, R74, R128; `OR`, `AND`, `XOR` leave it: decided, D11, the flag of `ADD I`: D12). -/
def Obligations.VfHasItsWriters : Prop :=
  ∀ (i : Instr) (s t : State), exec i s = .next t → t.getV vf ≠ s.getV vf →
    (∃ x y, i = .addReg x y) ∨ (∃ x y, i = .sub x y) ∨ (∃ x y, i = .subn x y) ∨
    (∃ x y, i = .shr x y) ∨ (∃ x y, i = .shl x y) ∨ (∃ x y n, i = .drw x y n) ∨
    (s.params.fx1eSetsVf = true ∧ ∃ x, i = .addI x) ∨
    (∃ nn, i = .ldImm vf nn) ∨ (∃ nn, i = .addImm vf nn) ∨ (∃ y, i = .ldReg vf y) ∨
    (∃ y, i = .orReg vf y) ∨ (∃ y, i = .andReg vf y) ∨ (∃ y, i = .xorReg vf y) ∨
    (∃ nn, i = .rnd vf nn) ∨ i = .ldFromDt vf ∨ i = .loadRegs vf

/-- A program observes the keys only by `SKP` and `SKNP`, the delay timer only by `LD Vx, DT`, and the sound
timer by nothing: any other instruction does the same whatever they hold, and leaves them, but for `LD DT` and
`LD ST`, which put the same value over whatever their timer held (R15, R18, R105; the completion of `LD Vx, K`
is a cycle, not an instruction, R96). -/
def Obligations.InputsAreObservedOnlyWhereTheSpecSays : Prop :=
  ∀ (i : Instr) (s t : State), exec i s = .next t →
    (∀ ks, (∀ x, i ≠ .skp x) → (∀ x, i ≠ .sknp x) →
      exec i { s with keys := ks } = .next { t with keys := ks }) ∧
    (∀ d, (∀ x, i ≠ .ldFromDt x) → (∀ x, i ≠ .ldDt x) →
      exec i { s with dt := d } = .next { t with dt := d }) ∧
    (∀ d x, i = .ldDt x → exec i { s with dt := d } = .next t) ∧
    (∀ d, (∀ x, i ≠ .ldSt x) → exec i { s with st := d } = .next { t with st := d }) ∧
    ∀ d x, i = .ldSt x → exec i { s with st := d } = .next t
end

