-- ==== Sys2Proof/Laws/Decode.lean ====
section
/-! SUPPORT. The fields of a word laid out from fields (spec/30_encoding.md R50, R51), and a word put
together again from its fields. -/

namespace Sys2Proof

/-- Two fields side by side, as a number. -/
theorem toNat_append_add (a b : Nat) (hi : BitVec a) (lo : BitVec b) :
    (hi ++ lo).toNat = hi.toNat * 2 ^ b + lo.toNat := by
  rw [BitVec.toNat_append, ← Nat.shiftLeft_add_eq_or_of_lt lo.isLt, Nat.shiftLeft_eq]

@[simp] theorem regBits_toNat (x : Reg) : (regBits x).toNat = x.val := rfl

section

variable (op : BitVec 4) (nnn : BitVec 12) (x y : Reg) (nn : Byte) (n : BitVec 4) (w : Word)

theorem wordNNN_toNat : (wordNNN op nnn).toNat = op.toNat * 4096 + nnn.toNat :=
  toNat_append_add 4 12 op nnn

theorem wordXNN_toNat : (wordXNN op x nn).toNat = op.toNat * 4096 + x.val * 256 + nn.toNat := by
  have h : (wordXNN op x nn).toNat = (op ++ regBits x).toNat * 2 ^ 8 + nn.toNat :=
    toNat_append_add 8 8 (op ++ regBits x) nn
  rw [toNat_append_add 4 4, regBits_toNat] at h
  rw [h, Nat.add_mul, Nat.mul_assoc]
  rfl

theorem wordXYN_toNat : (wordXYN op x y n).toNat =
    op.toNat * 4096 + x.val * 256 + y.val * 16 + n.toNat := by
  have h : (wordXYN op x y n).toNat = (op ++ regBits x ++ regBits y).toNat * 2 ^ 4 + n.toNat :=
    toNat_append_add 12 4 (op ++ regBits x ++ regBits y) n
  rw [toNat_append_add 8 4, toNat_append_add 4 4, regBits_toNat, regBits_toNat] at h
  omega

theorem opField_toNat : (opField w).toNat = w.toNat / 4096 := by
  have := w.isLt
  simp only [opField, BitVec.extractLsb'_toNat, Nat.shiftRight_eq_div_pow]
  omega

theorem xField_val : (xField w).val = w.toNat / 256 % 16 := by
  change (w.extractLsb' 8 4).toNat = _
  simp only [BitVec.extractLsb'_toNat, Nat.shiftRight_eq_div_pow]

theorem yField_val : (yField w).val = w.toNat / 16 % 16 := by
  change (w.extractLsb' 4 4).toNat = _
  simp only [BitVec.extractLsb'_toNat, Nat.shiftRight_eq_div_pow]

theorem nField_toNat : (nField w).toNat = w.toNat % 16 := by
  simp only [nField, BitVec.extractLsb'_toNat, Nat.shiftRight_zero]

theorem nnField_toNat : (nnField w).toNat = w.toNat % 256 := by
  simp only [nnField, BitVec.extractLsb'_toNat, Nat.shiftRight_zero]

theorem nnnField_toNat : (nnnField w).toNat = w.toNat % 4096 := by
  simp only [nnnField, BitVec.extractLsb'_toNat, Nat.shiftRight_zero]

@[simp] theorem opField_wordNNN : opField (wordNNN op nnn) = op :=
  BitVec.eq_of_toNat_eq (by rw [opField_toNat, wordNNN_toNat]; omega)

@[simp] theorem nnnField_wordNNN : nnnField (wordNNN op nnn) = nnn :=
  BitVec.eq_of_toNat_eq (by rw [nnnField_toNat, wordNNN_toNat]; omega)

@[simp] theorem opField_wordXNN : opField (wordXNN op x nn) = op :=
  BitVec.eq_of_toNat_eq (by rw [opField_toNat, wordXNN_toNat]; omega)

@[simp] theorem xField_wordXNN : xField (wordXNN op x nn) = x :=
  Fin.ext (by rw [xField_val, wordXNN_toNat]; omega)

@[simp] theorem nnField_wordXNN : nnField (wordXNN op x nn) = nn :=
  BitVec.eq_of_toNat_eq (by rw [nnField_toNat, wordXNN_toNat]; omega)

@[simp] theorem opField_wordXYN : opField (wordXYN op x y n) = op :=
  BitVec.eq_of_toNat_eq (by rw [opField_toNat, wordXYN_toNat]; omega)

@[simp] theorem xField_wordXYN : xField (wordXYN op x y n) = x :=
  Fin.ext (by rw [xField_val, wordXYN_toNat]; omega)

@[simp] theorem yField_wordXYN : yField (wordXYN op x y n) = y :=
  Fin.ext (by rw [yField_val, wordXYN_toNat]; omega)

@[simp] theorem nField_wordXYN : nField (wordXYN op x y n) = n :=
  BitVec.eq_of_toNat_eq (by rw [nField_toNat, wordXYN_toNat]; omega)

/-- Every word is its `op` and `nnn` fields side by side. -/
theorem wordNNN_fields : wordNNN (opField w) (nnnField w) = w :=
  BitVec.eq_of_toNat_eq (by rw [wordNNN_toNat, opField_toNat, nnnField_toNat]; omega)

/-- Every word is its `op`, `x` and `nn` fields side by side. -/
theorem wordXNN_fields : wordXNN (opField w) (xField w) (nnField w) = w :=
  BitVec.eq_of_toNat_eq (by rw [wordXNN_toNat, opField_toNat, xField_val, nnField_toNat]; omega)

/-- Every word is its `op`, `x`, `y` and `n` fields side by side. -/
theorem wordXYN_fields : wordXYN (opField w) (xField w) (yField w) (nField w) = w :=
  BitVec.eq_of_toNat_eq (by
    rw [wordXYN_toNat, opField_toNat, xField_val, yField_val, nField_toNat]; omega)

/-- The word of two bytes that are the bytes of a word is that word (R41). -/
@[simp] theorem wordOfBytes_bytes : wordOfBytes (firstByte w) (secondByte w) = w := by
  apply BitVec.eq_of_toNat_eq
  have h : (wordOfBytes (firstByte w) (secondByte w)).toNat =
      (firstByte w).toNat * 2 ^ 8 + (secondByte w).toNat :=
    toNat_append_add 8 8 (firstByte w) (secondByte w)
  rw [h]
  have := w.isLt
  simp only [firstByte, secondByte, BitVec.extractLsb'_toNat, Nat.shiftRight_eq_div_pow]
  omega

/-! ## Masks -/

theorem opField_and (a b : Word) : opField (a &&& b) = opField a &&& opField b :=
  BitVec.extractLsb'_and

theorem xField_and (a b : Word) : xField (a &&& b) = (regBits (xField a) &&& regBits (xField b)).toFin :=
  congrArg BitVec.toFin (BitVec.extractLsb'_and (x := a) (y := b) (start := 8) (len := 4))

theorem yField_and (a b : Word) : yField (a &&& b) = (regBits (yField a) &&& regBits (yField b)).toFin :=
  congrArg BitVec.toFin (BitVec.extractLsb'_and (x := a) (y := b) (start := 4) (len := 4))

theorem nField_and (a b : Word) : nField (a &&& b) = nField a &&& nField b :=
  BitVec.extractLsb'_and

theorem nnField_and (a b : Word) : nnField (a &&& b) = nnField a &&& nnField b :=
  BitVec.extractLsb'_and

theorem nnnField_and (a b : Word) : nnnField (a &&& b) = nnnField a &&& nnnField b :=
  BitVec.extractLsb'_and

/-- The mask of formats `NNN`, `XNN` and `XYN` keeps the `op` field (R51). -/
theorem and_F000 : w &&& 0xF000#16 = wordNNN (opField w) 0 := by
  have h1 : opField w &&& opField 0xF000#16 = opField w := BitVec.and_allOnes
  have h2 : nnnField w &&& nnnField 0xF000#16 = 0 := BitVec.and_zero
  rw [← wordNNN_fields (w &&& 0xF000#16), opField_and, nnnField_and, h1, h2]

/-- The mask of format `XY` keeps the `op` and `n` fields (R51). -/
theorem and_F00F : w &&& 0xF00F#16 = wordXYN (opField w) 0 0 (nField w) := by
  have h1 : opField w &&& opField 0xF00F#16 = opField w := BitVec.and_allOnes
  have h2 : (regBits (xField w) &&& regBits (xField 0xF00F#16)).toFin = 0 :=
    congrArg BitVec.toFin (BitVec.and_zero (x := regBits (xField w)))
  have h3 : (regBits (yField w) &&& regBits (yField 0xF00F#16)).toFin = 0 :=
    congrArg BitVec.toFin (BitVec.and_zero (x := regBits (yField w)))
  have h4 : nField w &&& nField 0xF00F#16 = nField w := BitVec.and_allOnes
  rw [← wordXYN_fields (w &&& 0xF00F#16), opField_and, xField_and, yField_and, nField_and,
    h1, h2, h3, h4]

/-- The mask of format `X` keeps the `op` and `nn` fields (R51). -/
theorem and_F0FF : w &&& 0xF0FF#16 = wordXNN (opField w) 0 (nnField w) := by
  have h1 : opField w &&& opField 0xF0FF#16 = opField w := BitVec.and_allOnes
  have h2 : (regBits (xField w) &&& regBits (xField 0xF0FF#16)).toFin = 0 :=
    congrArg BitVec.toFin (BitVec.and_zero (x := regBits (xField w)))
  have h3 : nnField w &&& nnField 0xF0FF#16 = nnField w := BitVec.and_allOnes
  rw [← wordXNN_fields (w &&& 0xF0FF#16), opField_and, xField_and, nnField_and, h1, h2, h3]

end

end Sys2Proof
end

