-- ==== Sys2Proof/Laws/State.lean ====
section
/-! SUPPORT. What each named update of State leaves in each field, and what it does to the reads
(`getV`, `readByte`, `key`): by these no later proof unfolds a record update. -/

namespace Sys2Proof.Machine

section

variable (s : State)

@[simp] theorem State.setV_v (x : Reg) (b : Byte) : (s.setV x b).v = s.v.set x b := rfl
@[simp] theorem State.setV_i (x : Reg) (b : Byte) : (s.setV x b).i = s.i := rfl
@[simp] theorem State.setV_pc (x : Reg) (b : Byte) : (s.setV x b).pc = s.pc := rfl
@[simp] theorem State.setV_stack (x : Reg) (b : Byte) : (s.setV x b).stack = s.stack := rfl
@[simp] theorem State.setV_dt (x : Reg) (b : Byte) : (s.setV x b).dt = s.dt := rfl
@[simp] theorem State.setV_st (x : Reg) (b : Byte) : (s.setV x b).st = s.st := rfl
@[simp] theorem State.setV_mem (x : Reg) (b : Byte) : (s.setV x b).mem = s.mem := rfl
@[simp] theorem State.setV_disp (x : Reg) (b : Byte) : (s.setV x b).disp = s.disp := rfl
@[simp] theorem State.setV_keys (x : Reg) (b : Byte) : (s.setV x b).keys = s.keys := rfl
@[simp] theorem State.setV_mode (x : Reg) (b : Byte) : (s.setV x b).mode = s.mode := rfl
@[simp] theorem State.setV_wake (x : Reg) (b : Byte) : (s.setV x b).wake = s.wake := rfl
@[simp] theorem State.setV_image (x : Reg) (b : Byte) : (s.setV x b).image = s.image := rfl
@[simp] theorem State.setV_loaded (x : Reg) (b : Byte) : (s.setV x b).loaded = s.loaded := rfl
@[simp] theorem State.setV_params (x : Reg) (b : Byte) : (s.setV x b).params = s.params := rfl
@[simp] theorem State.setV_draws (x : Reg) (b : Byte) : (s.setV x b).draws = s.draws := rfl
@[simp] theorem State.setV_pending (x : Reg) (b : Byte) : (s.setV x b).pending = s.pending := rfl
@[simp] theorem State.setV_events (x : Reg) (b : Byte) : (s.setV x b).events = s.events := rfl
@[simp] theorem State.setV_result (x : Reg) (b : Byte) : (s.setV x b).result = s.result := rfl
@[simp] theorem State.setV_readByte (x : Reg) (b : Byte) (p : Nat) : (s.setV x b).readByte p = s.readByte p := rfl
@[simp] theorem State.setV_unlisted (x : Reg) (b : Byte) (p : Nat) : (s.setV x b).unlisted p = s.unlisted p := rfl
@[simp] theorem State.setV_key (x : Reg) (b : Byte) (c : KeyCode) : (s.setV x b).key c = s.key c := rfl

end

section

variable (s : State)

@[simp] theorem State.setPc_v (a : Word) : (s.setPc a).v = s.v := rfl
@[simp] theorem State.setPc_i (a : Word) : (s.setPc a).i = s.i := rfl
@[simp] theorem State.setPc_pc (a : Word) : (s.setPc a).pc = a := rfl
@[simp] theorem State.setPc_stack (a : Word) : (s.setPc a).stack = s.stack := rfl
@[simp] theorem State.setPc_dt (a : Word) : (s.setPc a).dt = s.dt := rfl
@[simp] theorem State.setPc_st (a : Word) : (s.setPc a).st = s.st := rfl
@[simp] theorem State.setPc_mem (a : Word) : (s.setPc a).mem = s.mem := rfl
@[simp] theorem State.setPc_disp (a : Word) : (s.setPc a).disp = s.disp := rfl
@[simp] theorem State.setPc_keys (a : Word) : (s.setPc a).keys = s.keys := rfl
@[simp] theorem State.setPc_mode (a : Word) : (s.setPc a).mode = s.mode := rfl
@[simp] theorem State.setPc_wake (a : Word) : (s.setPc a).wake = s.wake := rfl
@[simp] theorem State.setPc_image (a : Word) : (s.setPc a).image = s.image := rfl
@[simp] theorem State.setPc_loaded (a : Word) : (s.setPc a).loaded = s.loaded := rfl
@[simp] theorem State.setPc_params (a : Word) : (s.setPc a).params = s.params := rfl
@[simp] theorem State.setPc_draws (a : Word) : (s.setPc a).draws = s.draws := rfl
@[simp] theorem State.setPc_pending (a : Word) : (s.setPc a).pending = s.pending := rfl
@[simp] theorem State.setPc_events (a : Word) : (s.setPc a).events = s.events := rfl
@[simp] theorem State.setPc_result (a : Word) : (s.setPc a).result = s.result := rfl
@[simp] theorem State.setPc_getV (a : Word) (r : Reg) : (s.setPc a).getV r = s.getV r := rfl
@[simp] theorem State.setPc_readByte (a : Word) (p : Nat) : (s.setPc a).readByte p = s.readByte p := rfl
@[simp] theorem State.setPc_unlisted (a : Word) (p : Nat) : (s.setPc a).unlisted p = s.unlisted p := rfl
@[simp] theorem State.setPc_key (a : Word) (c : KeyCode) : (s.setPc a).key c = s.key c := rfl

end

section

variable (s : State)

@[simp] theorem State.advance_v : s.advance.v = s.v := rfl
@[simp] theorem State.advance_i : s.advance.i = s.i := rfl
@[simp] theorem State.advance_pc : s.advance.pc = s.pc + 2#16 := rfl
@[simp] theorem State.advance_stack : s.advance.stack = s.stack := rfl
@[simp] theorem State.advance_dt : s.advance.dt = s.dt := rfl
@[simp] theorem State.advance_st : s.advance.st = s.st := rfl
@[simp] theorem State.advance_mem : s.advance.mem = s.mem := rfl
@[simp] theorem State.advance_disp : s.advance.disp = s.disp := rfl
@[simp] theorem State.advance_keys : s.advance.keys = s.keys := rfl
@[simp] theorem State.advance_mode : s.advance.mode = s.mode := rfl
@[simp] theorem State.advance_wake : s.advance.wake = s.wake := rfl
@[simp] theorem State.advance_image : s.advance.image = s.image := rfl
@[simp] theorem State.advance_loaded : s.advance.loaded = s.loaded := rfl
@[simp] theorem State.advance_params : s.advance.params = s.params := rfl
@[simp] theorem State.advance_draws : s.advance.draws = s.draws := rfl
@[simp] theorem State.advance_pending : s.advance.pending = s.pending := rfl
@[simp] theorem State.advance_events : s.advance.events = s.events := rfl
@[simp] theorem State.advance_result : s.advance.result = s.result := rfl
@[simp] theorem State.advance_getV (r : Reg) : s.advance.getV r = s.getV r := rfl
@[simp] theorem State.advance_readByte (p : Nat) : s.advance.readByte p = s.readByte p := rfl
@[simp] theorem State.advance_unlisted (p : Nat) : s.advance.unlisted p = s.unlisted p := rfl
@[simp] theorem State.advance_key (c : KeyCode) : s.advance.key c = s.key c := rfl

end

section

variable (s : State)

@[simp] theorem State.skipIf_v (b : Bool) : (s.skipIf b).v = s.v := by cases b <;> rfl
@[simp] theorem State.skipIf_i (b : Bool) : (s.skipIf b).i = s.i := by cases b <;> rfl
@[simp] theorem State.skipIf_stack (b : Bool) : (s.skipIf b).stack = s.stack := by cases b <;> rfl
@[simp] theorem State.skipIf_dt (b : Bool) : (s.skipIf b).dt = s.dt := by cases b <;> rfl
@[simp] theorem State.skipIf_st (b : Bool) : (s.skipIf b).st = s.st := by cases b <;> rfl
@[simp] theorem State.skipIf_mem (b : Bool) : (s.skipIf b).mem = s.mem := by cases b <;> rfl
@[simp] theorem State.skipIf_disp (b : Bool) : (s.skipIf b).disp = s.disp := by cases b <;> rfl
@[simp] theorem State.skipIf_keys (b : Bool) : (s.skipIf b).keys = s.keys := by cases b <;> rfl
@[simp] theorem State.skipIf_mode (b : Bool) : (s.skipIf b).mode = s.mode := by cases b <;> rfl
@[simp] theorem State.skipIf_wake (b : Bool) : (s.skipIf b).wake = s.wake := by cases b <;> rfl
@[simp] theorem State.skipIf_image (b : Bool) : (s.skipIf b).image = s.image := by cases b <;> rfl
@[simp] theorem State.skipIf_loaded (b : Bool) : (s.skipIf b).loaded = s.loaded := by cases b <;> rfl
@[simp] theorem State.skipIf_params (b : Bool) : (s.skipIf b).params = s.params := by cases b <;> rfl
@[simp] theorem State.skipIf_draws (b : Bool) : (s.skipIf b).draws = s.draws := by cases b <;> rfl
@[simp] theorem State.skipIf_pending (b : Bool) : (s.skipIf b).pending = s.pending := by cases b <;> rfl
@[simp] theorem State.skipIf_events (b : Bool) : (s.skipIf b).events = s.events := by cases b <;> rfl
@[simp] theorem State.skipIf_result (b : Bool) : (s.skipIf b).result = s.result := by cases b <;> rfl
@[simp] theorem State.skipIf_getV (b : Bool) (r : Reg) : (s.skipIf b).getV r = s.getV r := by cases b <;> rfl
@[simp] theorem State.skipIf_readByte (b : Bool) (p : Nat) : (s.skipIf b).readByte p = s.readByte p := by cases b <;> rfl
@[simp] theorem State.skipIf_unlisted (b : Bool) (p : Nat) : (s.skipIf b).unlisted p = s.unlisted p := by cases b <;> rfl
@[simp] theorem State.skipIf_key (b : Bool) (c : KeyCode) : (s.skipIf b).key c = s.key c := by cases b <;> rfl

end

section

variable (s : State)

@[simp] theorem State.halt_v (e : HaltReason) : (s.halt e).v = s.v := rfl
@[simp] theorem State.halt_i (e : HaltReason) : (s.halt e).i = s.i := rfl
@[simp] theorem State.halt_pc (e : HaltReason) : (s.halt e).pc = s.pc := rfl
@[simp] theorem State.halt_stack (e : HaltReason) : (s.halt e).stack = s.stack := rfl
@[simp] theorem State.halt_dt (e : HaltReason) : (s.halt e).dt = s.dt := rfl
@[simp] theorem State.halt_st (e : HaltReason) : (s.halt e).st = s.st := rfl
@[simp] theorem State.halt_mem (e : HaltReason) : (s.halt e).mem = s.mem := rfl
@[simp] theorem State.halt_disp (e : HaltReason) : (s.halt e).disp = s.disp := rfl
@[simp] theorem State.halt_keys (e : HaltReason) : (s.halt e).keys = s.keys := rfl
@[simp] theorem State.halt_mode (e : HaltReason) : (s.halt e).mode = .halted e := rfl
@[simp] theorem State.halt_wake (e : HaltReason) : (s.halt e).wake = s.wake := rfl
@[simp] theorem State.halt_image (e : HaltReason) : (s.halt e).image = s.image := rfl
@[simp] theorem State.halt_loaded (e : HaltReason) : (s.halt e).loaded = s.loaded := rfl
@[simp] theorem State.halt_params (e : HaltReason) : (s.halt e).params = s.params := rfl
@[simp] theorem State.halt_draws (e : HaltReason) : (s.halt e).draws = s.draws := rfl
@[simp] theorem State.halt_pending (e : HaltReason) : (s.halt e).pending = s.pending := rfl
@[simp] theorem State.halt_events (e : HaltReason) : (s.halt e).events = [] := rfl
@[simp] theorem State.halt_result (e : HaltReason) : (s.halt e).result = .error e := rfl
@[simp] theorem State.halt_getV (e : HaltReason) (r : Reg) : (s.halt e).getV r = s.getV r := rfl
@[simp] theorem State.halt_readByte (e : HaltReason) (p : Nat) : (s.halt e).readByte p = s.readByte p := rfl
@[simp] theorem State.halt_unlisted (e : HaltReason) (p : Nat) : (s.halt e).unlisted p = s.unlisted p := rfl
@[simp] theorem State.halt_key (e : HaltReason) (c : KeyCode) : (s.halt e).key c = s.key c := rfl

end

section

variable (s : State)

@[simp] theorem State.signal_v (e : Event) : (s.signal e).v = s.v := rfl
@[simp] theorem State.signal_i (e : Event) : (s.signal e).i = s.i := rfl
@[simp] theorem State.signal_pc (e : Event) : (s.signal e).pc = s.pc := rfl
@[simp] theorem State.signal_stack (e : Event) : (s.signal e).stack = s.stack := rfl
@[simp] theorem State.signal_dt (e : Event) : (s.signal e).dt = s.dt := rfl
@[simp] theorem State.signal_st (e : Event) : (s.signal e).st = s.st := rfl
@[simp] theorem State.signal_mem (e : Event) : (s.signal e).mem = s.mem := rfl
@[simp] theorem State.signal_disp (e : Event) : (s.signal e).disp = s.disp := rfl
@[simp] theorem State.signal_keys (e : Event) : (s.signal e).keys = s.keys := rfl
@[simp] theorem State.signal_mode (e : Event) : (s.signal e).mode = s.mode := rfl
@[simp] theorem State.signal_wake (e : Event) : (s.signal e).wake = s.wake := rfl
@[simp] theorem State.signal_image (e : Event) : (s.signal e).image = s.image := rfl
@[simp] theorem State.signal_loaded (e : Event) : (s.signal e).loaded = s.loaded := rfl
@[simp] theorem State.signal_params (e : Event) : (s.signal e).params = s.params := rfl
@[simp] theorem State.signal_draws (e : Event) : (s.signal e).draws = s.draws := rfl
@[simp] theorem State.signal_pending (e : Event) : (s.signal e).pending = s.pending := rfl
@[simp] theorem State.signal_events (e : Event) : (s.signal e).events = s.events ++ [e] := rfl
@[simp] theorem State.signal_result (e : Event) : (s.signal e).result = s.result := rfl
@[simp] theorem State.signal_getV (e : Event) (r : Reg) : (s.signal e).getV r = s.getV r := rfl
@[simp] theorem State.signal_readByte (e : Event) (p : Nat) : (s.signal e).readByte p = s.readByte p := rfl
@[simp] theorem State.signal_unlisted (e : Event) (p : Nat) : (s.signal e).unlisted p = s.unlisted p := rfl
@[simp] theorem State.signal_key (e : Event) (c : KeyCode) : (s.signal e).key c = s.key c := rfl

end

section

variable (s : State)

@[simp] theorem State.beginCommand_v : s.beginCommand.v = s.v := rfl
@[simp] theorem State.beginCommand_i : s.beginCommand.i = s.i := rfl
@[simp] theorem State.beginCommand_pc : s.beginCommand.pc = s.pc := rfl
@[simp] theorem State.beginCommand_stack : s.beginCommand.stack = s.stack := rfl
@[simp] theorem State.beginCommand_dt : s.beginCommand.dt = s.dt := rfl
@[simp] theorem State.beginCommand_st : s.beginCommand.st = s.st := rfl
@[simp] theorem State.beginCommand_mem : s.beginCommand.mem = s.mem := rfl
@[simp] theorem State.beginCommand_disp : s.beginCommand.disp = s.disp := rfl
@[simp] theorem State.beginCommand_keys : s.beginCommand.keys = s.keys := rfl
@[simp] theorem State.beginCommand_mode : s.beginCommand.mode = s.mode := rfl
@[simp] theorem State.beginCommand_wake : s.beginCommand.wake = s.wake := rfl
@[simp] theorem State.beginCommand_image : s.beginCommand.image = s.image := rfl
@[simp] theorem State.beginCommand_loaded : s.beginCommand.loaded = s.loaded := rfl
@[simp] theorem State.beginCommand_params : s.beginCommand.params = s.params := rfl
@[simp] theorem State.beginCommand_draws : s.beginCommand.draws = s.draws := rfl
@[simp] theorem State.beginCommand_pending : s.beginCommand.pending = s.pending := rfl
@[simp] theorem State.beginCommand_events : s.beginCommand.events = [] := rfl
@[simp] theorem State.beginCommand_result : s.beginCommand.result = .ok := rfl
@[simp] theorem State.beginCommand_getV (r : Reg) : s.beginCommand.getV r = s.getV r := rfl
@[simp] theorem State.beginCommand_readByte (p : Nat) : s.beginCommand.readByte p = s.readByte p := rfl
@[simp] theorem State.beginCommand_unlisted (p : Nat) : s.beginCommand.unlisted p = s.unlisted p := rfl
@[simp] theorem State.beginCommand_key (c : KeyCode) : s.beginCommand.key c = s.key c := rfl

end

section

variable (s : State)

@[simp] theorem State.writeByte_v (a : Nat) (b : Byte) : (s.writeByte a b).v = s.v := rfl
@[simp] theorem State.writeByte_i (a : Nat) (b : Byte) : (s.writeByte a b).i = s.i := rfl
@[simp] theorem State.writeByte_pc (a : Nat) (b : Byte) : (s.writeByte a b).pc = s.pc := rfl
@[simp] theorem State.writeByte_stack (a : Nat) (b : Byte) : (s.writeByte a b).stack = s.stack := rfl
@[simp] theorem State.writeByte_dt (a : Nat) (b : Byte) : (s.writeByte a b).dt = s.dt := rfl
@[simp] theorem State.writeByte_st (a : Nat) (b : Byte) : (s.writeByte a b).st = s.st := rfl
@[simp] theorem State.writeByte_mem (a : Nat) (b : Byte) : (s.writeByte a b).mem = s.mem.write (s.unlisted a) a b := rfl
@[simp] theorem State.writeByte_disp (a : Nat) (b : Byte) : (s.writeByte a b).disp = s.disp := rfl
@[simp] theorem State.writeByte_keys (a : Nat) (b : Byte) : (s.writeByte a b).keys = s.keys := rfl
@[simp] theorem State.writeByte_mode (a : Nat) (b : Byte) : (s.writeByte a b).mode = s.mode := rfl
@[simp] theorem State.writeByte_wake (a : Nat) (b : Byte) : (s.writeByte a b).wake = s.wake := rfl
@[simp] theorem State.writeByte_image (a : Nat) (b : Byte) : (s.writeByte a b).image = s.image := rfl
@[simp] theorem State.writeByte_loaded (a : Nat) (b : Byte) : (s.writeByte a b).loaded = s.loaded := rfl
@[simp] theorem State.writeByte_params (a : Nat) (b : Byte) : (s.writeByte a b).params = s.params := rfl
@[simp] theorem State.writeByte_draws (a : Nat) (b : Byte) : (s.writeByte a b).draws = s.draws := rfl
@[simp] theorem State.writeByte_pending (a : Nat) (b : Byte) : (s.writeByte a b).pending = s.pending := rfl
@[simp] theorem State.writeByte_events (a : Nat) (b : Byte) : (s.writeByte a b).events = s.events := rfl
@[simp] theorem State.writeByte_result (a : Nat) (b : Byte) : (s.writeByte a b).result = s.result := rfl
@[simp] theorem State.writeByte_getV (a : Nat) (b : Byte) (r : Reg) : (s.writeByte a b).getV r = s.getV r := rfl
@[simp] theorem State.writeByte_unlisted (a : Nat) (b : Byte) (p : Nat) : (s.writeByte a b).unlisted p = s.unlisted p := rfl
@[simp] theorem State.writeByte_key (a : Nat) (b : Byte) (c : KeyCode) : (s.writeByte a b).key c = s.key c := rfl

end

section

variable (s : State)

@[simp] theorem State.setKey_v (k : KeyCode) (h : Bool) : (s.setKey k h).v = s.v := rfl
@[simp] theorem State.setKey_i (k : KeyCode) (h : Bool) : (s.setKey k h).i = s.i := rfl
@[simp] theorem State.setKey_pc (k : KeyCode) (h : Bool) : (s.setKey k h).pc = s.pc := rfl
@[simp] theorem State.setKey_stack (k : KeyCode) (h : Bool) : (s.setKey k h).stack = s.stack := rfl
@[simp] theorem State.setKey_dt (k : KeyCode) (h : Bool) : (s.setKey k h).dt = s.dt := rfl
@[simp] theorem State.setKey_st (k : KeyCode) (h : Bool) : (s.setKey k h).st = s.st := rfl
@[simp] theorem State.setKey_mem (k : KeyCode) (h : Bool) : (s.setKey k h).mem = s.mem := rfl
@[simp] theorem State.setKey_disp (k : KeyCode) (h : Bool) : (s.setKey k h).disp = s.disp := rfl
@[simp] theorem State.setKey_keys (k : KeyCode) (h : Bool) : (s.setKey k h).keys = s.keys.set k h := rfl
@[simp] theorem State.setKey_mode (k : KeyCode) (h : Bool) : (s.setKey k h).mode = s.mode := rfl
@[simp] theorem State.setKey_wake (k : KeyCode) (h : Bool) : (s.setKey k h).wake = s.wake := rfl
@[simp] theorem State.setKey_image (k : KeyCode) (h : Bool) : (s.setKey k h).image = s.image := rfl
@[simp] theorem State.setKey_loaded (k : KeyCode) (h : Bool) : (s.setKey k h).loaded = s.loaded := rfl
@[simp] theorem State.setKey_params (k : KeyCode) (h : Bool) : (s.setKey k h).params = s.params := rfl
@[simp] theorem State.setKey_draws (k : KeyCode) (h : Bool) : (s.setKey k h).draws = s.draws := rfl
@[simp] theorem State.setKey_pending (k : KeyCode) (h : Bool) : (s.setKey k h).pending = s.pending := rfl
@[simp] theorem State.setKey_events (k : KeyCode) (h : Bool) : (s.setKey k h).events = s.events := rfl
@[simp] theorem State.setKey_result (k : KeyCode) (h : Bool) : (s.setKey k h).result = s.result := rfl
@[simp] theorem State.setKey_getV (k : KeyCode) (h : Bool) (r : Reg) : (s.setKey k h).getV r = s.getV r := rfl
@[simp] theorem State.setKey_readByte (k : KeyCode) (h : Bool) (p : Nat) : (s.setKey k h).readByte p = s.readByte p := rfl
@[simp] theorem State.setKey_unlisted (k : KeyCode) (h : Bool) (p : Nat) : (s.setKey k h).unlisted p = s.unlisted p := rfl

end

section

variable (s : State)

@[simp] theorem State.setFlag_v (f : Bool) : (s.setFlag f).v = s.v.set vf (flagByte f) := rfl
@[simp] theorem State.setFlag_i (f : Bool) : (s.setFlag f).i = s.i := rfl
@[simp] theorem State.setFlag_pc (f : Bool) : (s.setFlag f).pc = s.pc := rfl
@[simp] theorem State.setFlag_stack (f : Bool) : (s.setFlag f).stack = s.stack := rfl
@[simp] theorem State.setFlag_dt (f : Bool) : (s.setFlag f).dt = s.dt := rfl
@[simp] theorem State.setFlag_st (f : Bool) : (s.setFlag f).st = s.st := rfl
@[simp] theorem State.setFlag_mem (f : Bool) : (s.setFlag f).mem = s.mem := rfl
@[simp] theorem State.setFlag_disp (f : Bool) : (s.setFlag f).disp = s.disp := rfl
@[simp] theorem State.setFlag_keys (f : Bool) : (s.setFlag f).keys = s.keys := rfl
@[simp] theorem State.setFlag_mode (f : Bool) : (s.setFlag f).mode = s.mode := rfl
@[simp] theorem State.setFlag_wake (f : Bool) : (s.setFlag f).wake = s.wake := rfl
@[simp] theorem State.setFlag_image (f : Bool) : (s.setFlag f).image = s.image := rfl
@[simp] theorem State.setFlag_loaded (f : Bool) : (s.setFlag f).loaded = s.loaded := rfl
@[simp] theorem State.setFlag_params (f : Bool) : (s.setFlag f).params = s.params := rfl
@[simp] theorem State.setFlag_draws (f : Bool) : (s.setFlag f).draws = s.draws := rfl
@[simp] theorem State.setFlag_pending (f : Bool) : (s.setFlag f).pending = s.pending := rfl
@[simp] theorem State.setFlag_events (f : Bool) : (s.setFlag f).events = s.events := rfl
@[simp] theorem State.setFlag_result (f : Bool) : (s.setFlag f).result = s.result := rfl
@[simp] theorem State.setFlag_readByte (f : Bool) (p : Nat) : (s.setFlag f).readByte p = s.readByte p := rfl
@[simp] theorem State.setFlag_unlisted (f : Bool) (p : Nat) : (s.setFlag f).unlisted p = s.unlisted p := rfl
@[simp] theorem State.setFlag_key (f : Bool) (c : KeyCode) : (s.setFlag f).key c = s.key c := rfl

end

section

variable (s : State)

@[simp] theorem State.setResultAndFlag_v (x : Reg) (b : Byte) (f : Bool) : (s.setResultAndFlag x b f).v = (s.v.set x b).set vf (flagByte f) := rfl
@[simp] theorem State.setResultAndFlag_i (x : Reg) (b : Byte) (f : Bool) : (s.setResultAndFlag x b f).i = s.i := rfl
@[simp] theorem State.setResultAndFlag_pc (x : Reg) (b : Byte) (f : Bool) : (s.setResultAndFlag x b f).pc = s.pc := rfl
@[simp] theorem State.setResultAndFlag_stack (x : Reg) (b : Byte) (f : Bool) : (s.setResultAndFlag x b f).stack = s.stack := rfl
@[simp] theorem State.setResultAndFlag_dt (x : Reg) (b : Byte) (f : Bool) : (s.setResultAndFlag x b f).dt = s.dt := rfl
@[simp] theorem State.setResultAndFlag_st (x : Reg) (b : Byte) (f : Bool) : (s.setResultAndFlag x b f).st = s.st := rfl
@[simp] theorem State.setResultAndFlag_mem (x : Reg) (b : Byte) (f : Bool) : (s.setResultAndFlag x b f).mem = s.mem := rfl
@[simp] theorem State.setResultAndFlag_disp (x : Reg) (b : Byte) (f : Bool) : (s.setResultAndFlag x b f).disp = s.disp := rfl
@[simp] theorem State.setResultAndFlag_keys (x : Reg) (b : Byte) (f : Bool) : (s.setResultAndFlag x b f).keys = s.keys := rfl
@[simp] theorem State.setResultAndFlag_mode (x : Reg) (b : Byte) (f : Bool) : (s.setResultAndFlag x b f).mode = s.mode := rfl
@[simp] theorem State.setResultAndFlag_wake (x : Reg) (b : Byte) (f : Bool) : (s.setResultAndFlag x b f).wake = s.wake := rfl
@[simp] theorem State.setResultAndFlag_image (x : Reg) (b : Byte) (f : Bool) : (s.setResultAndFlag x b f).image = s.image := rfl
@[simp] theorem State.setResultAndFlag_loaded (x : Reg) (b : Byte) (f : Bool) : (s.setResultAndFlag x b f).loaded = s.loaded := rfl
@[simp] theorem State.setResultAndFlag_params (x : Reg) (b : Byte) (f : Bool) : (s.setResultAndFlag x b f).params = s.params := rfl
@[simp] theorem State.setResultAndFlag_draws (x : Reg) (b : Byte) (f : Bool) : (s.setResultAndFlag x b f).draws = s.draws := rfl
@[simp] theorem State.setResultAndFlag_pending (x : Reg) (b : Byte) (f : Bool) : (s.setResultAndFlag x b f).pending = s.pending := rfl
@[simp] theorem State.setResultAndFlag_events (x : Reg) (b : Byte) (f : Bool) : (s.setResultAndFlag x b f).events = s.events := rfl
@[simp] theorem State.setResultAndFlag_result (x : Reg) (b : Byte) (f : Bool) : (s.setResultAndFlag x b f).result = s.result := rfl
@[simp] theorem State.setResultAndFlag_readByte (x : Reg) (b : Byte) (f : Bool) (p : Nat) : (s.setResultAndFlag x b f).readByte p = s.readByte p := rfl
@[simp] theorem State.setResultAndFlag_unlisted (x : Reg) (b : Byte) (f : Bool) (p : Nat) : (s.setResultAndFlag x b f).unlisted p = s.unlisted p := rfl
@[simp] theorem State.setResultAndFlag_key (x : Reg) (b : Byte) (f : Bool) (c : KeyCode) : (s.setResultAndFlag x b f).key c = s.key c := rfl

end

/-- A skip's `PC` (R54). -/
@[simp] theorem State.skipIf_pc (s : State) (b : Bool) :
    (s.skipIf b).pc = if b then s.pc + 4#16 else s.pc + 2#16 := by cases b <;> rfl

/-- Only `V` can change in a run of register writes. -/
theorem State.setVs_eq (s : State) (k : Nat) (bs : List Byte) :
    s.setVs k bs = { s with v := (s.setVs k bs).v } := by
  induction bs generalizing s k with
  | nil => rfl
  | cons b bs ih =>
    unfold State.setVs
    split
    · rw [ih]; rfl
    · rfl

end Sys2Proof.Machine
end

