-- ==== Sys2Proof/Laws/Ops.lean ====
section
/-! SUPPORT. One lemma per shared operation that says once what it can do: register and memory reads
after writes, the memory's canonical form, runs of reads and writes, the stack, pixels, commit. -/

namespace Sys2Proof.Machine

/-! ## Registers -/

@[simp] theorem State.setV_getV (s : State) (x r : Reg) (b : Byte) :
    (s.setV x b).getV r = if r = x then b else s.getV r := by
  simp only [State.getV, State.setV, Fin.getElem_fin, Vector.getElem_set]
  by_cases h : r = x
  · simp [h]
  · have : x.val ≠ r.val := fun e => h (Fin.ext e.symm)
    simp [h, this]

theorem State.setFlag_getV (s : State) (f : Bool) (r : Reg) :
    (s.setFlag f).getV r = if r = vf then flagByte f else s.getV r :=
  State.setV_getV s vf r _

/-- R74: the flag is written last, so it wins at `x = 0xF`. -/
theorem State.setResultAndFlag_getV (s : State) (x : Reg) (b : Byte) (f : Bool) (r : Reg) :
    (s.setResultAndFlag x b f).getV r =
      if r = vf then flagByte f else if r = x then b else s.getV r := by
  simp [State.setResultAndFlag, State.setFlag_getV]

/-- The registers `k, k+1, ...` take the bytes of the list in turn; the others keep theirs. -/
theorem State.setVs_getV (s : State) (k : Nat) (bs : List Byte) (r : Reg) :
    (s.setVs k bs).getV r = if k ≤ r.val then bs.getD (r.val - k) (s.getV r) else s.getV r := by
  induction bs generalizing s k with
  | nil => simp [State.setVs]
  | cons b bs ih =>
    unfold State.setVs
    split
    · rename_i h
      rw [ih, State.setV_getV]
      rcases Nat.lt_trichotomy r.val k with hr | hr | hr
      · have : r ≠ ⟨k, h⟩ := fun e => by simp [e] at hr
        simp [this, Nat.not_le.mpr hr, Nat.not_le.mpr (Nat.lt_succ_of_lt hr)]
      · have : r = ⟨k, h⟩ := Fin.ext hr
        simp [this]
      · have : r ≠ ⟨k, h⟩ := fun e => by simp [e] at hr
        obtain ⟨d, hd⟩ : ∃ d, r.val - k = d + 1 := ⟨r.val - k - 1, by omega⟩
        have hd' : r.val - (k + 1) = d := by omega
        simp [this, hd, hd', Nat.succ_le_of_lt hr, Nat.le_of_lt hr]
    · rename_i h
      have : ¬ k ≤ r.val := by omega
      simp [this]

/-- The stored registers in order (R91). -/
theorem State.regsUpTo_length (s : State) (x : Reg) : (s.regsUpTo x).length = x.val + 1 := by
  simp [State.regsUpTo]

theorem State.regsUpTo_getElem (s : State) (x : Reg) (k : Nat) (h : k < (s.regsUpTo x).length) :
    (s.regsUpTo x)[k] = s.getV ⟨k, by rw [State.regsUpTo_length] at h; omega⟩ := by
  simp [State.regsUpTo, State.getV]

/-! ## Memory as a list -/

theorem Memory.lookup_erase (m : Memory) (a b : Nat) :
    (m.erase a).lookup b = if b = a then none else m.lookup b := by
  induction m with
  | nil => simp [Memory.erase, Memory.lookup]
  | cons c m ih =>
    obtain ⟨p, v⟩ := c
    by_cases h : p = a <;> by_cases h' : b = a <;> by_cases h'' : p = b <;>
      simp_all [Memory.erase, Memory.lookup]

theorem Memory.lookup_insert (m : Memory) (a b : Nat) (v : Byte) :
    (m.insert a v).lookup b = if b = a then some v else m.lookup b := by
  induction m with
  | nil =>
    by_cases h : b = a
    · simp [Memory.insert, Memory.lookup, h]
    · simp [Memory.insert, Memory.lookup, h, Ne.symm h]
  | cons c m ih =>
    obtain ⟨p, w⟩ := c
    unfold Memory.insert
    split
    · by_cases h : b = a
      · simp [Memory.lookup, h]
      · simp [Memory.lookup, h, Ne.symm h]
    · split
      · rename_i h1
        subst h1
        by_cases h : b = a
        · simp [Memory.lookup, h]
        · simp [Memory.lookup, h, Ne.symm h]
      · rename_i h1 h2
        simp only [Memory.lookup, ih]
        by_cases h : b = a
        · subst h; simp [Ne.symm h2]
        · simp [h]

/-- The lists agree below: every listed address of `m.insert a v` is `a` or one of `m`'s. -/
theorem Memory.mem_insert (m : Memory) (a : Nat) (v : Byte) (c : Host.Cell)
    (h : c ∈ m.insert a v) : c = (a, v) ∨ c ∈ m := by
  induction m with
  | nil => simpa [Memory.insert] using h
  | cons d m ih =>
    obtain ⟨p, w⟩ := d
    unfold Memory.insert at h
    split at h
    · simpa using h
    · split at h
      · rcases List.mem_cons.mp h with h | h
        · exact .inl h
        · exact .inr (List.mem_cons_of_mem _ h)
      · rcases List.mem_cons.mp h with h | h
        · exact .inr (h ▸ List.mem_cons_self)
        · exact (ih h).imp id (List.mem_cons_of_mem _)

theorem Memory.mem_erase (m : Memory) (a : Nat) (c : Host.Cell) (h : c ∈ m.erase a) :
    c ∈ m ∧ c.1 ≠ a := by
  induction m with
  | nil => simp [Memory.erase] at h
  | cons d m ih =>
    obtain ⟨p, w⟩ := d
    unfold Memory.erase at h
    split at h
    · exact ⟨List.mem_cons_of_mem _ (ih h).1, (ih h).2⟩
    · rename_i hp
      rcases List.mem_cons.mp h with h | h
      · exact ⟨h ▸ List.mem_cons_self, by rw [h]; exact hp⟩
      · exact ⟨List.mem_cons_of_mem _ (ih h).1, (ih h).2⟩

theorem Memory.insert_sorted (m : Memory) (a : Nat) (v : Byte)
    (hm : m.Pairwise (fun c d => c.1 < d.1)) :
    (m.insert a v).Pairwise (fun c d => c.1 < d.1) := by
  induction m with
  | nil => simp [Memory.insert]
  | cons c m ih =>
    obtain ⟨p, w⟩ := c
    have hp := (List.pairwise_cons.mp hm).1
    unfold Memory.insert
    split
    · rename_i h
      refine List.pairwise_cons.mpr ⟨fun d hd => ?_, hm⟩
      rcases List.mem_cons.mp hd with hd | hd
      · simpa [hd] using h
      · exact Nat.lt_trans h (hp d hd)
    · split
      · rename_i h
        exact List.pairwise_cons.mpr ⟨fun d hd => by simpa [h] using hp d hd, hm.of_cons⟩
      · rename_i h1 h2
        refine List.pairwise_cons.mpr ⟨fun d hd => ?_, ih hm.of_cons⟩
        rcases Memory.mem_insert m a v d hd with hd | hd
        · simp [hd]; omega
        · exact hp d hd

theorem Memory.erase_sorted (m : Memory) (a : Nat) (hm : m.Pairwise (fun c d => c.1 < d.1)) :
    (m.erase a).Pairwise (fun c d => c.1 < d.1) := by
  induction m with
  | nil => simp [Memory.erase]
  | cons c m ih =>
    obtain ⟨p, w⟩ := c
    unfold Memory.erase
    split
    · exact ih hm.of_cons
    · exact List.pairwise_cons.mpr
        ⟨fun d hd => (List.pairwise_cons.mp hm).1 d (Memory.mem_erase m a d hd).1, ih hm.of_cons⟩

/-- A write inside memory keeps the canonical form. -/
theorem Memory.write_wf (dflt : Nat → Byte) (m : Memory) (a : Nat) (v : Byte)
    (hm : m.wf dflt) (ha : a < memSize) : (m.write (dflt a) a v).wf dflt := by
  unfold Memory.write
  split
  · exact ⟨Memory.erase_sorted m a hm.1, fun c hc => hm.2 c (Memory.mem_erase m a c hc).1⟩
  · rename_i hv
    refine ⟨Memory.insert_sorted m a v hm.1, fun c hc => ?_⟩
    rcases Memory.mem_insert m a v c hc with h | h
    · exact ⟨by simpa [h] using ha, by simpa [h] using hv⟩
    · exact hm.2 c h

/-! ## Memory access -/

theorem State.reset_memWf : State.reset.memWf :=
  ⟨List.Pairwise.nil, fun _ hc => absurd hc List.not_mem_nil⟩

/-- Read after write (R40). -/
theorem State.writeByte_readByte (s : State) (a p : Nat) (b : Byte) :
    (s.writeByte a b).readByte p = if p = a then b else s.readByte p := by
  unfold State.readByte
  rw [State.writeByte_unlisted, State.writeByte_mem, Memory.write]
  split
  · rw [Memory.lookup_erase]
    by_cases h : p = a <;> simp_all
  · rw [Memory.lookup_insert]
    by_cases h : p = a <;> simp_all

theorem State.writeByte_memWf (s : State) (a : Nat) (b : Byte) (hs : s.memWf) (ha : a < memSize) :
    (s.writeByte a b).memWf := by
  have : (s.writeByte a b).unlisted = s.unlisted := rfl
  unfold State.memWf
  rw [this, State.writeByte_mem]
  exact Memory.write_wf _ _ _ _ hs ha

/-- A run of reads: all the bytes in order if every address is valid, else the lowest bad address
(R35, R103). -/
theorem State.readRun_eq (s : State) (a n : Nat) :
    s.readRun a n =
      if n = 0 ∨ a + n ≤ memSize then .ok ((List.range n).map fun k => s.readByte (a + k))
      else .error (.outOfBounds (max a memSize)) := by
  induction n generalizing a with
  | zero => simp [State.readRun]
  | succ n ih =>
    unfold State.readRun State.memRead
    by_cases ha : memSize ≤ a
    · have : ¬ a + (n + 1) ≤ memSize := by omega
      simp [ha, this]
    · simp only [ha, if_false, ih]
      by_cases hn : n = 0 ∨ a + 1 + n ≤ memSize
      · have h2 : a + (n + 1) ≤ memSize := by omega
        rw [if_pos hn]
        simp only [h2, or_true, if_true, List.range_succ_eq_map, List.map_cons, List.map_map,
          Nat.add_zero, Except.ok.injEq, List.cons.injEq, true_and]
        refine List.map_congr_left fun k _ => ?_
        simp only [Function.comp_apply, Nat.succ_eq_add_one]
        congr 1
        omega
      · have h2 : ¬ a + (n + 1) ≤ memSize := by omega
        have h3 : max (a + 1) memSize = max a memSize := by omega
        simp [hn, h2, h3]

/-- Everything a run of writes can do: it lands whole, changing nothing but its own bytes, or it
fails with the lowest bad address (R36, R103). -/
theorem State.writeRun_cases (s : State) (a : Nat) (bs : List Byte) :
    (∃ t, s.writeRun a bs = .ok t ∧ (bs = [] ∨ a + bs.length ≤ memSize) ∧
      t = { s with mem := t.mem } ∧ (s.memWf → t.memWf) ∧
      ∀ p, t.readByte p = if a ≤ p then bs.getD (p - a) (s.readByte p) else s.readByte p) ∨
    (s.writeRun a bs = .error (.outOfBounds (max a memSize)) ∧ memSize < a + bs.length) := by
  induction bs generalizing s a with
  | nil => exact .inl ⟨s, rfl, .inl rfl, rfl, id, fun p => by simp⟩
  | cons b bs ih =>
    unfold State.writeRun State.memWrite
    by_cases ha : memSize ≤ a
    · exact .inr ⟨by simp [ha], by simp only [List.length_cons]; omega⟩
    · simp only [ha, if_false]
      rcases ih (s.writeByte a b) (a + 1) with
        ⟨t, ht, hb, hf, hw, hr⟩ | ⟨he, hb⟩
      · refine .inl ⟨t, ht, .inr ?_, hf,
          fun hs => hw (State.writeByte_memWf s a b hs (by omega)), fun p => ?_⟩
        · rcases hb with rfl | hb
          · simp only [List.length_cons, List.length_nil]; omega
          · simp only [List.length_cons]; omega
        · rw [hr p, State.writeByte_readByte s a p b]
          rcases Nat.lt_trichotomy p a with h | h | h
          · have h1 : ¬ a + 1 ≤ p := by omega
            have h2 : ¬ a ≤ p := by omega
            have h3 : p ≠ a := by omega
            simp [h1, h2, h3]
          · subst h; simp
          · have h1 : a + 1 ≤ p := by omega
            have h2 : a ≤ p := by omega
            have h3 : p ≠ a := by omega
            obtain ⟨d, hd⟩ : ∃ d, p - a = d + 1 := ⟨p - a - 1, by omega⟩
            have hd' : p - (a + 1) = d := by omega
            simp [h1, h2, h3, hd, hd']
      · refine .inr ⟨?_, by simp only [List.length_cons]; omega⟩
        rw [he]
        congr 2
        omega

/-! ## Stack -/

theorem State.push_eq (s : State) (v : Word) (h : s.stack.length < stackDepth) :
    s.push v = .ok { s with stack := s.stack ++ [v] } := by
  simp only [State.push, Nat.not_le.mpr h, if_false]

theorem State.push_full (s : State) (v : Word) (h : stackDepth ≤ s.stack.length) :
    s.push v = .error .stackOverflow := by
  simp only [State.push, h, if_true]

theorem State.pop_snoc (s : State) (st : List Word) (v : Word) (h : s.stack = st ++ [v]) :
    s.pop = .ok (v, { s with stack := st }) := by
  simp [State.pop, h]

theorem State.pop_empty (s : State) (h : s.stack = []) : s.pop = .error .stackUnderflow := by
  simp [State.pop, h]

/-! ## Commit -/

@[simp] theorem State.commit_ok (s t : State) : s.commit (.ok t) = .next t := rfl

@[simp] theorem State.commit_error (s : State) (e : HaltReason) :
    s.commit (.error e) = .next (s.halt e) := rfl

/-- An instruction that commits answers a next state: the one worked out, or the halt of `s`. -/
theorem State.commit_cases (s t : State) (r : Except HaltReason State) (h : s.commit r = .next t) :
    r = .ok t ∨ ∃ e, r = .error e ∧ t = s.halt e := by
  cases r with
  | ok u => simp only [State.commit_ok, Host.Outcome.next.injEq] at h; exact .inl (by rw [h])
  | error e =>
    simp only [State.commit_error, Host.Outcome.next.injEq] at h
    exact .inr ⟨e, rfl, h.symm⟩

/-! ## Display and keys -/

theorem Display.flip_pixel (d : Display) (x p : Fin 64) (y q : Fin 32) :
    (d.flip x y).pixel p q = (d.pixel p q ^^ decide (p = x ∧ q = y)) := by
  unfold Display.flip Display.pixel
  simp only [Fin.getElem_fin, Vector.getElem_set]
  by_cases hq : q = y
  · subst hq
    by_cases hp : p = x
    · subst hp
      simp
    · have : ¬ (p.val = x.val) := fun e => hp (Fin.ext e)
      simp only [if_true, BitVec.getLsbD_xor, hp, false_and, decide_false, Bool.xor_false]
      have h1 : (1#64 <<< x.val).getLsbD p.val = false := by
        simp
        omega
      rw [h1, Bool.xor_false]
  · have : ¬ (y.val = q.val) := fun e => hq (Fin.ext e.symm)
    simp [hq, this]

@[simp] theorem Display.clear_pixel (x : Fin 64) (y : Fin 32) :
    Display.clear.pixel x y = false := by
  simp [Display.clear, Display.pixel]

@[simp] theorem State.setKey_key (s : State) (k c : KeyCode) (h : Bool) :
    (s.setKey k h).key c = if c = k then h else s.key c := by
  simp only [State.key, State.setKey, Fin.getElem_fin, Vector.getElem_set]
  by_cases e : c = k
  · simp [e]
  · have : ¬ k.val = c.val := fun e' => e (Fin.ext e'.symm)
    simp [e, this]

end Sys2Proof.Machine
end

