-- ==== Sys2Proof/Laws/PerInstr.lean ====
section
/-! SUPPORT. Per instruction: its word meets the `match` and `mask` of its own row of
spec/opcode_table.json (spec/30_encoding.md R55). -/

namespace Sys2Proof.Laws

/-- The row of spec/opcode_table.json an instruction stands for, as (`match`, `mask`). -/
def tableRow : Instr → Word × Word
  | .cls => (0x00E0#16, 0xFFFF#16)
  | .ret => (0x00EE#16, 0xFFFF#16)
  | .jp _ => (0x1000#16, 0xF000#16)
  | .call _ => (0x2000#16, 0xF000#16)
  | .seImm _ _ => (0x3000#16, 0xF000#16)
  | .sneImm _ _ => (0x4000#16, 0xF000#16)
  | .seReg _ _ => (0x5000#16, 0xF00F#16)
  | .sneReg _ _ => (0x9000#16, 0xF00F#16)
  | .ldImm _ _ => (0x6000#16, 0xF000#16)
  | .addImm _ _ => (0x7000#16, 0xF000#16)
  | .ldReg _ _ => (0x8000#16, 0xF00F#16)
  | .orReg _ _ => (0x8001#16, 0xF00F#16)
  | .andReg _ _ => (0x8002#16, 0xF00F#16)
  | .xorReg _ _ => (0x8003#16, 0xF00F#16)
  | .addReg _ _ => (0x8004#16, 0xF00F#16)
  | .sub _ _ => (0x8005#16, 0xF00F#16)
  | .shr _ _ => (0x8006#16, 0xF00F#16)
  | .subn _ _ => (0x8007#16, 0xF00F#16)
  | .shl _ _ => (0x800E#16, 0xF00F#16)
  | .ldI _ => (0xA000#16, 0xF000#16)
  | .jpV0 _ => (0xB000#16, 0xF000#16)
  | .rnd _ _ => (0xC000#16, 0xF000#16)
  | .drw _ _ _ => (0xD000#16, 0xF000#16)
  | .skp _ => (0xE09E#16, 0xF0FF#16)
  | .sknp _ => (0xE0A1#16, 0xF0FF#16)
  | .ldKey _ => (0xF00A#16, 0xF0FF#16)
  | .ldFromDt _ => (0xF007#16, 0xF0FF#16)
  | .ldDt _ => (0xF015#16, 0xF0FF#16)
  | .ldSt _ => (0xF018#16, 0xF0FF#16)
  | .addI _ => (0xF01E#16, 0xF0FF#16)
  | .ldFont _ => (0xF029#16, 0xF0FF#16)
  | .ldBcd _ => (0xF033#16, 0xF0FF#16)
  | .storeRegs _ => (0xF055#16, 0xF0FF#16)
  | .loadRegs _ => (0xF065#16, 0xF0FF#16)

/-- An instruction's row is in the table, and its word matches it on every fixed bit. -/
def TableRow.Statement (i : Instr) : Prop :=
  tableRow i ∈ opcodeRows ∧ encode i &&& (tableRow i).2 = (tableRow i).1

theorem TableRow.cls : TableRow.Statement .cls :=
  ⟨by decide, by decide⟩

theorem TableRow.ret : TableRow.Statement .ret :=
  ⟨by decide, by decide⟩

theorem TableRow.jp (nnn : BitVec 12) : TableRow.Statement (.jp nnn) :=
  ⟨by simp [tableRow, opcodeRows], (and_F000 _).trans (by simp [encode]; rfl)⟩

theorem TableRow.call (nnn : BitVec 12) : TableRow.Statement (.call nnn) :=
  ⟨by simp [tableRow, opcodeRows], (and_F000 _).trans (by simp [encode]; rfl)⟩

theorem TableRow.seImm (x : Reg) (nn : Byte) : TableRow.Statement (.seImm x nn) :=
  ⟨by simp [tableRow, opcodeRows], (and_F000 _).trans (by simp [encode]; rfl)⟩

theorem TableRow.sneImm (x : Reg) (nn : Byte) : TableRow.Statement (.sneImm x nn) :=
  ⟨by simp [tableRow, opcodeRows], (and_F000 _).trans (by simp [encode]; rfl)⟩

theorem TableRow.seReg (x y : Reg) : TableRow.Statement (.seReg x y) :=
  ⟨by simp [tableRow, opcodeRows], (and_F00F _).trans (by simp [encode]; rfl)⟩

theorem TableRow.sneReg (x y : Reg) : TableRow.Statement (.sneReg x y) :=
  ⟨by simp [tableRow, opcodeRows], (and_F00F _).trans (by simp [encode]; rfl)⟩

theorem TableRow.ldImm (x : Reg) (nn : Byte) : TableRow.Statement (.ldImm x nn) :=
  ⟨by simp [tableRow, opcodeRows], (and_F000 _).trans (by simp [encode]; rfl)⟩

theorem TableRow.addImm (x : Reg) (nn : Byte) : TableRow.Statement (.addImm x nn) :=
  ⟨by simp [tableRow, opcodeRows], (and_F000 _).trans (by simp [encode]; rfl)⟩

theorem TableRow.ldReg (x y : Reg) : TableRow.Statement (.ldReg x y) :=
  ⟨by simp [tableRow, opcodeRows], (and_F00F _).trans (by simp [encode]; rfl)⟩

theorem TableRow.orReg (x y : Reg) : TableRow.Statement (.orReg x y) :=
  ⟨by simp [tableRow, opcodeRows], (and_F00F _).trans (by simp [encode]; rfl)⟩

theorem TableRow.andReg (x y : Reg) : TableRow.Statement (.andReg x y) :=
  ⟨by simp [tableRow, opcodeRows], (and_F00F _).trans (by simp [encode]; rfl)⟩

theorem TableRow.xorReg (x y : Reg) : TableRow.Statement (.xorReg x y) :=
  ⟨by simp [tableRow, opcodeRows], (and_F00F _).trans (by simp [encode]; rfl)⟩

theorem TableRow.addReg (x y : Reg) : TableRow.Statement (.addReg x y) :=
  ⟨by simp [tableRow, opcodeRows], (and_F00F _).trans (by simp [encode]; rfl)⟩

theorem TableRow.sub (x y : Reg) : TableRow.Statement (.sub x y) :=
  ⟨by simp [tableRow, opcodeRows], (and_F00F _).trans (by simp [encode]; rfl)⟩

theorem TableRow.shr (x y : Reg) : TableRow.Statement (.shr x y) :=
  ⟨by simp [tableRow, opcodeRows], (and_F00F _).trans (by simp [encode]; rfl)⟩

theorem TableRow.subn (x y : Reg) : TableRow.Statement (.subn x y) :=
  ⟨by simp [tableRow, opcodeRows], (and_F00F _).trans (by simp [encode]; rfl)⟩

theorem TableRow.shl (x y : Reg) : TableRow.Statement (.shl x y) :=
  ⟨by simp [tableRow, opcodeRows], (and_F00F _).trans (by simp [encode]; rfl)⟩

theorem TableRow.ldI (nnn : BitVec 12) : TableRow.Statement (.ldI nnn) :=
  ⟨by simp [tableRow, opcodeRows], (and_F000 _).trans (by simp [encode]; rfl)⟩

theorem TableRow.jpV0 (nnn : BitVec 12) : TableRow.Statement (.jpV0 nnn) :=
  ⟨by simp [tableRow, opcodeRows], (and_F000 _).trans (by simp [encode]; rfl)⟩

theorem TableRow.rnd (x : Reg) (nn : Byte) : TableRow.Statement (.rnd x nn) :=
  ⟨by simp [tableRow, opcodeRows], (and_F000 _).trans (by simp [encode]; rfl)⟩

theorem TableRow.drw (x y : Reg) (n : BitVec 4) : TableRow.Statement (.drw x y n) :=
  ⟨by simp [tableRow, opcodeRows], (and_F000 _).trans (by simp [encode]; rfl)⟩

theorem TableRow.skp (x : Reg) : TableRow.Statement (.skp x) :=
  ⟨by simp [tableRow, opcodeRows], (and_F0FF _).trans (by simp [encode]; rfl)⟩

theorem TableRow.sknp (x : Reg) : TableRow.Statement (.sknp x) :=
  ⟨by simp [tableRow, opcodeRows], (and_F0FF _).trans (by simp [encode]; rfl)⟩

theorem TableRow.ldKey (x : Reg) : TableRow.Statement (.ldKey x) :=
  ⟨by simp [tableRow, opcodeRows], (and_F0FF _).trans (by simp [encode]; rfl)⟩

theorem TableRow.ldFromDt (x : Reg) : TableRow.Statement (.ldFromDt x) :=
  ⟨by simp [tableRow, opcodeRows], (and_F0FF _).trans (by simp [encode]; rfl)⟩

theorem TableRow.ldDt (x : Reg) : TableRow.Statement (.ldDt x) :=
  ⟨by simp [tableRow, opcodeRows], (and_F0FF _).trans (by simp [encode]; rfl)⟩

theorem TableRow.ldSt (x : Reg) : TableRow.Statement (.ldSt x) :=
  ⟨by simp [tableRow, opcodeRows], (and_F0FF _).trans (by simp [encode]; rfl)⟩

theorem TableRow.addI (x : Reg) : TableRow.Statement (.addI x) :=
  ⟨by simp [tableRow, opcodeRows], (and_F0FF _).trans (by simp [encode]; rfl)⟩

theorem TableRow.ldFont (x : Reg) : TableRow.Statement (.ldFont x) :=
  ⟨by simp [tableRow, opcodeRows], (and_F0FF _).trans (by simp [encode]; rfl)⟩

theorem TableRow.ldBcd (x : Reg) : TableRow.Statement (.ldBcd x) :=
  ⟨by simp [tableRow, opcodeRows], (and_F0FF _).trans (by simp [encode]; rfl)⟩

theorem TableRow.storeRegs (x : Reg) : TableRow.Statement (.storeRegs x) :=
  ⟨by simp [tableRow, opcodeRows], (and_F0FF _).trans (by simp [encode]; rfl)⟩

theorem TableRow.loadRegs (x : Reg) : TableRow.Statement (.loadRegs x) :=
  ⟨by simp [tableRow, opcodeRows], (and_F0FF _).trans (by simp [encode]; rfl)⟩

end Sys2Proof.Laws
end

