-- ==== Sys2Proof/Laws/Step.lean ====
section
/-! SUPPORT. What a step, a command and a cycle are in each case, once: later proofs cite these equations
and do not unfold the step. -/

namespace Sys2Proof.Machine

theorem step_nil (s : State) (h : s.pending = []) : step s = runCommand .emulateCycle s := by
  simp only [step, h]

theorem step_cons (s : State) (c : Command) (rest : List Command) (h : s.pending = c :: rest) :
    step s = runCommand c { s with pending := rest } := by
  simp only [step, h]

theorem runCommand_session (c : Command) (s : State) (h : s.loaded = true) :
    runCommand c s = sessionCommand c s := by
  simp only [runCommand, h, if_true]

theorem runCommand_first (c : Command) (s : State) (h : s.loaded = false) :
    runCommand c s = firstCommand c s := by
  simp [runCommand, h]

/-- A wait with a key latched ends (R96). -/
theorem emulateCycle_waiting_some (s : State) (x : Reg) (k : KeyCode)
    (h : s.mode = .waitingForKey x) (hw : s.wake = some k) :
    emulateCycle s =
      .next (({ s.beginCommand with wake := none, mode := .active } : State).setV x
        (BitVec.ofNat 8 k.val)) := by
  have hw' : s.beginCommand.wake = some k := hw
  simp only [emulateCycle, h, cycleWaiting, hw']

/-- A wait with no key latched goes on (R96). -/
theorem emulateCycle_waiting_none (s : State) (x : Reg) (h : s.mode = .waitingForKey x)
    (hw : s.wake = none) : emulateCycle s = .next s.beginCommand := by
  have hw' : s.beginCommand.wake = none := hw
  simp only [emulateCycle, h, cycleWaiting, hw']

theorem emulateCycle_halted (s : State) (r : HaltReason) (h : s.mode = .halted r) :
    emulateCycle s = .next { s.beginCommand with result := .error r } := by
  simp only [emulateCycle, h, cycleHalted]

/-- In `Active`: a fetch out of bounds halts, ... -/
theorem emulateCycle_fetchOutOfBounds (s : State) (h : s.mode = .active)
    (hpc : 4096 ≤ s.pc.toNat + 1) :
    emulateCycle s = .next (s.beginCommand.halt (.fetchOutOfBounds s.pc)) := by
  have : memSize ≤ s.pc.toNat + 1 := hpc
  simp only [emulateCycle, h, cycleActive, this, if_true, State.beginCommand_pc]

/-- ... within the bound, a word that decodes is executed, ... -/
theorem emulateCycle_exec (s : State) (i : Instr) (h : s.mode = .active)
    (hpc : s.pc.toNat + 1 < 4096) (hd : decode s.fetchWord = .ok i) :
    emulateCycle s = exec i s.beginCommand := by
  have h1 : ¬ memSize ≤ s.beginCommand.pc.toNat + 1 := Nat.not_le.mpr hpc
  have h2 : decode s.beginCommand.fetchWord = .ok i := hd
  simp only [emulateCycle, h, cycleActive, h1, if_false, h2]

/-- ... and a word that does not halts with that word. -/
theorem emulateCycle_unknown (s : State) (e : DecodeError) (h : s.mode = .active)
    (hpc : s.pc.toNat + 1 < 4096) (hd : decode s.fetchWord = .error e) :
    emulateCycle s = .next (s.beginCommand.halt (.unknownOpcode s.fetchWord)) := by
  have h1 : ¬ memSize ≤ s.beginCommand.pc.toNat + 1 := Nat.not_le.mpr hpc
  have h2 : decode s.beginCommand.fetchWord = .error e := hd
  simp only [emulateCycle, h, cycleActive, h1, if_false, h2]
  rfl

/-- A halt forgets what the command had signalled, so it is the same from `beginCommand`. -/
@[simp] theorem State.beginCommand_halt (s : State) (r : HaltReason) :
    s.beginCommand.halt r = s.halt r := rfl

theorem core_run_succ (M : Host.Core) (n : Nat) (s t : M.State) (h : M.step s = .next t) :
    M.run (n + 1) s = M.run n t := by
  simp only [Host.Core.run, h]

/-- A run of one step more (R25): the first step, then the rest. -/
theorem run_succ (n : Nat) (s t : State) (h : step s = .next t) :
    core.run (n + 1) s = core.run n t :=
  core_run_succ core n s t h

theorem run_zero (s : State) : core.run 0 s = .next s := rfl

/-- What memory holds after a run of writes, byte by byte (R36, R39). -/
theorem State.writeRun_byteAfterStore (s t : State) (a : Nat) (bs : List Byte)
    (h : s.writeRun a bs = .ok t) (p : Nat) : t.readByte p = s.byteAfterStore a bs p := by
  rcases State.writeRun_cases s a bs with ⟨u, hu, -, -, -, hr⟩ | ⟨he, -⟩
  · obtain rfl : u = t := Except.ok.inj (hu.symm.trans h)
    rw [hr p, State.byteAfterStore]
    by_cases hp : a ≤ p <;> by_cases hq : p - a < bs.length
    · rw [if_pos hp, if_pos ⟨hp, by omega⟩, List.getD_eq_getElem _ _ hq, List.getD_eq_getElem _ _ hq]
    · rw [if_pos hp, if_neg (by omega), List.getD_eq_default _ _ (by omega)]
    · rw [if_neg hp, if_neg (fun c => hp c.1)]
    · rw [if_neg hp, if_neg (fun c => hp c.1)]
  · rw [he] at h
    cases h

end Sys2Proof.Machine
end

