-- ==== Sys2Proof/Tests/Slice0.lean ====
section
/-! SUPPORT. The model's own tests. Expected values are those of spec/95_test_vectors.md (ids in the names'
docstrings) or the words of spec/30_encoding.md; then a witness for the hypotheses of every statement that
has some. -/

namespace Sys2Proof.Tests

open Sys2Proof Sys2Proof.Machine

/-- The state of an answer; the block without a session where there is none. -/
def after (o : Answer) : State :=
  match o with
  | .next t => t
  | _ => beforeLoad

/-- The post-load start state with these registers. -/
def regs (l : List (Reg × Byte)) : State := l.foldl (fun s p => s.setV p.1 p.2) State.reset

/-- Bytes placed in memory from an address. -/
def poke (s : State) (a : Nat) (bs : List Byte) : State := after (s.commit (s.writeRun a bs))

/-- Pixels turned on. -/
def lit (s : State) (l : List (Fin 64 × Fin 32)) : State :=
  { s with disp := l.foldl (fun d p => d.flip p.1 p.2) s.disp }

/-- One cycle with the word at `PC`. -/
def cycle (w : Nat) (s : State) : State := after (step (s.withFetchWord 16 w))

/-- One host command. -/
def command (c : Command) (s : State) : State := after (runCommand c s)

/-! ## What well-formedness refuses -/

theorem test_wellformed_font_below_program : defaultParams.wf = true ∧
    ({ defaultParams with fontBase := 0x1B0 } : Params).wf = true := by decide

/-- R5: `FONT_BASE + 80 <= PROG_BASE`; 0x1B1 is the first base that fails. -/
theorem test_illformed_font_base : ({ defaultParams with fontBase := 0x1B1 } : Params).wf = false := by
  decide

/-- R120: "The boundary is exact". -/
theorem test_illformed_image : imageFits (List.replicate 3584 0xAA#8) = true ∧
    imageFits (List.replicate 3585 0xAA#8) = false := by
  unfold imageFits
  rw [List.length_replicate, List.length_replicate]
  decide

/-- An address twice, an address out of order, an address outside memory, a byte equal to what the unlisted
address reads as: none is canonical. -/
theorem test_illformed_memory :
    ¬ ({ State.reset with mem := [(0x300, 1), (0x300, 2)] } : State).memWf ∧
    ¬ ({ State.reset with mem := [(0x301, 1), (0x300, 2)] } : State).memWf ∧
    ¬ ({ State.reset with mem := [(4096, 1)] } : State).memWf ∧
    ¬ ({ State.reset with mem := [(0, 0xF0)] } : State).memWf ∧
    ({ State.reset with mem := [(0, 0xF1), (0x300, 1)] } : State).memWf := by decide

/-! ## Decoding -/

/-- The family's words of R55, written out from the layouts of R51. -/
theorem test_decode_display :
    decode 0b0000000011100000#16 = .ok (.cls) ∧
    decode 0b1101011111000011#16 = .ok (.drw 7 12 0x3#4) := by
  decide

/-- The family's words of R55, written out from the layouts of R51. -/
theorem test_decode_control_flow :
    decode 0b0000000011101110#16 = .ok (.ret) ∧
    decode 0b0001001010100111#16 = .ok (.jp 0x2A7#12) ∧
    decode 0b0010010011101000#16 = .ok (.call 0x4E8#12) ∧
    decode 0b0011001101101111#16 = .ok (.seImm 3 0x6F#8) ∧
    decode 0b0100011010010100#16 = .ok (.sneImm 6 0x94#8) ∧
    decode 0b0101100110100000#16 = .ok (.seReg 9 10) ∧
    decode 0b1001110011110000#16 = .ok (.sneReg 12 15) ∧
    decode 0b1011000000101101#16 = .ok (.jpV0 0x02D#12) := by
  decide

/-- The family's words of R55, written out from the layouts of R51. -/
theorem test_decode_register_alu :
    decode 0b0110001000101000#16 = .ok (.ldImm 2 0x28#8) ∧
    decode 0b0111010101001101#16 = .ok (.addImm 5 0x4D#8) ∧
    decode 0b1000100000110000#16 = .ok (.ldReg 8 3) ∧
    decode 0b1000101110000001#16 = .ok (.orReg 11 8) ∧
    decode 0b1000111011010010#16 = .ok (.andReg 14 13) ∧
    decode 0b1000000100100011#16 = .ok (.xorReg 1 2) ∧
    decode 0b1000010001110100#16 = .ok (.addReg 4 7) ∧
    decode 0b1000011111000101#16 = .ok (.sub 7 12) ∧
    decode 0b1000101000010110#16 = .ok (.shr 10 1) ∧
    decode 0b1000110101100111#16 = .ok (.subn 13 6) ∧
    decode 0b1000000010111110#16 = .ok (.shl 0 11) ∧
    decode 0b1100001110111111#16 = .ok (.rnd 3 0xBF#8) := by
  decide

/-- The family's words of R55, written out from the layouts of R51. -/
theorem test_decode_index_memory :
    decode 0b1010110101111010#16 = .ok (.ldI 0xD7A#12) ∧
    decode 0b1111100100011110#16 = .ok (.addI 9) ∧
    decode 0b1111110000101001#16 = .ok (.ldFont 12) ∧
    decode 0b1111111100110011#16 = .ok (.ldBcd 15) ∧
    decode 0b1111001001010101#16 = .ok (.storeRegs 2) ∧
    decode 0b1111010101100101#16 = .ok (.loadRegs 5) := by
  decide

/-- The family's words of R55, written out from the layouts of R51. -/
theorem test_decode_input_timers :
    decode 0b1110100010011110#16 = .ok (.skp 8) ∧
    decode 0b1110101110100001#16 = .ok (.sknp 11) ∧
    decode 0b1111111000001010#16 = .ok (.ldKey 14) ∧
    decode 0b1111000100000111#16 = .ok (.ldFromDt 1) ∧
    decode 0b1111010000010101#16 = .ok (.ldDt 4) ∧
    decode 0b1111011100011000#16 = .ok (.ldSt 7) := by
  decide

/-- VE3 to VE8: words that match no row on every fixed bit (R56, R57). -/
theorem test_decode_unknown :
    ([0x00E1, 0x0FFF, 0x5121, 0x912F, 0x8128, 0x8129, 0x812A, 0x812B, 0x812C, 0x812D, 0x812F] ++
     [0xE19F, 0xE1A2, 0xF100, 0xF1FF, 0xF119, 0x0000]).all
      (fun w => decide (decode w = Except.error (DecodeError.unknownOpcode w))) = true := by decide

/-- R59: an instruction is 2 bytes, the first the high one (VE1); fewer are none. -/
theorem test_decode_bytes :
    decodeBytes [0x12, 0x34, 0xFF] = .ok (.jp 0x234, [0xFF]) ∧ decodeBytes [0x12] = .error .truncated := by
  decide

theorem test_decode_table_word :
    decodeTableWord 16 0xF365 = some (.loadRegs 3) ∧ decodeTableWord 16 0x5121 = none := by decide

/-! ## Display -/

/-- VD1. -/
theorem test_cls :
    let t := cycle 0x00E0 (lit (regs [(vf, 0x33)]) [(5, 5), (63, 31)])
    t.disp = Display.clear ∧ t.getV vf = 0x33 ∧ t.events = [.repaint] ∧ t.pc = 0x202 := by decide

/-- W5, both draws: the second erases and collides. -/
theorem test_drw_twice :
    let t := cycle 0xD011 { poke State.reset 0x300 [0xFF] with i := 0x300 }
    let u := cycle 0xD011 t
    t.disp = (lit State.reset [(0, 0), (1, 0), (2, 0), (3, 0), (4, 0), (5, 0), (6, 0), (7, 0)]).disp ∧
    t.getV vf = 0 ∧ t.pc = 0x202 ∧ t.events = [.repaint] ∧
    u.disp = Display.clear ∧ u.getV vf = 1 ∧ u.pc = 0x204 := by decide +kernel

/-- Program P3, state after 5 cycles: wrap in a row, rows below 31 clipped. -/
theorem test_drw_wraps_and_clips :
    let t := cycle 0xD125 { regs [(1, 0x3E), (2, 0x1E)] with i := 0x005 }
    t.disp = (lit State.reset [(0, 30), (63, 31), (0, 31)]).disp ∧ t.getV vf = 0 := by decide +kernel

/-- VD12: a clipped row's byte outside memory still halts. -/
theorem test_drw_out_of_bounds :
    let t := cycle 0xD013 { regs [(1, 0x1F)] with i := 0xFFE }
    t.mode = .halted (.outOfBounds 0x1000) ∧ t.disp = Display.clear ∧ t.pc = 0x200 ∧ t.events = [] := by
  decide +kernel

/-- VD4: `n = 0` touches no memory. -/
theorem test_drw_no_rows :
    let t := cycle 0xD010 { regs [(vf, 1)] with i := 0xFFFF }
    t.mode = .active ∧ t.getV vf = 0 ∧ t.events = [.repaint] := by decide +kernel

/-! ## Control flow -/

/-- VC4. -/
theorem test_ret :
    let t := cycle 0x00EE { State.reset with stack := [0x202, 0x402], pc := 0x500 }
    t.pc = 0x402 ∧ t.stack = [0x202] := by decide

/-- W8. -/
theorem test_ret_underflow :
    let t := cycle 0x00EE State.reset
    t.mode = .halted .stackUnderflow ∧ t.pc = 0x200 ∧ t.result = .error .stackUnderflow := by decide

/-- VC1. -/
theorem test_jp : (cycle 0x1234 State.reset).pc = 0x234 := by decide

/-- VC3 and W7's 17th call. -/
theorem test_call :
    (cycle 0x2300 State.reset).stack = [0x202] ∧ (cycle 0x2300 State.reset).pc = 0x300 ∧
    (cycle 0x2200 { State.reset with stack := List.replicate 16 0x202 }).mode = .halted .stackOverflow := by
  decide

/-- VC7, VC8. -/
theorem test_skip_immediate :
    (cycle 0x3342 (regs [(3, 0x42)])).pc = 0x204 ∧ (cycle 0x3342 (regs [(3, 0x41)])).pc = 0x202 ∧
    (cycle 0x4342 (regs [(3, 0x42)])).pc = 0x202 ∧ (cycle 0x4342 (regs [(3, 0x41)])).pc = 0x204 := by decide

/-- VC10 to VC12. -/
theorem test_skip_register :
    (cycle 0x5110 (regs [(1, 7)])).pc = 0x204 ∧ (cycle 0x9110 (regs [(1, 7)])).pc = 0x202 ∧
    (cycle 0x5120 (regs [(1, 7), (2, 8)])).pc = 0x202 ∧
    (cycle 0x9120 (regs [(1, 7), (2, 8)])).pc = 0x204 := by decide

/-- VC15: no mask. -/
theorem test_jp_v0 :
    let t := cycle 0xBFFF (regs [(0, 0xFF)])
    t.pc = 0x10FE ∧ (after (step t)).mode = .halted (.fetchOutOfBounds 0x10FE) := by decide

/-! ## Registers and arithmetic -/

/-- W1, VA1. -/
theorem test_ld_imm :
    (cycle 0x6A42 State.reset).getV 10 = 0x42 ∧ (cycle 0x6F12 State.reset).getV vf = 0x12 := by decide

/-- VA2, VA3. -/
theorem test_add_imm :
    (cycle 0x7001 (regs [(0, 0xFF), (vf, 0x77)])).getV 0 = 0 ∧
    (cycle 0x7001 (regs [(0, 0xFF), (vf, 0x77)])).getV vf = 0x77 ∧
    (cycle 0x7F05 (regs [(vf, 0xFE)])).getV vf = 0x03 := by decide

/-- VA4. -/
theorem test_ld_reg : (cycle 0x8150 (regs [(5, 0x99)])).getV 1 = 0x99 := by decide

/-- VA5 to VA7. -/
theorem test_logic :
    (cycle 0x8011 (regs [(0, 0x0F), (1, 0xF0), (vf, 0x5A)])).getV 0 = 0xFF ∧
    (cycle 0x8012 (regs [(0, 0x3C), (1, 0x0F), (vf, 0x5A)])).getV 0 = 0x0C ∧
    (cycle 0x8013 (regs [(0, 0x3C), (1, 0x0F), (vf, 0x5A)])).getV 0 = 0x33 ∧
    (cycle 0x8013 (regs [(0, 0x3C), (1, 0x0F), (vf, 0x5A)])).getV vf = 0x5A := by decide

/-- W2a, VA13: at `x = 0xF` the flag wins. -/
theorem test_add :
    (cycle 0x8014 (regs [(0, 0xFF), (1, 0x01)])).getV 0 = 0 ∧
    (cycle 0x8014 (regs [(0, 0xFF), (1, 0x01)])).getV vf = 1 ∧
    (cycle 0x8F14 (regs [(vf, 0xFF), (1, 0x02)])).getV vf = 1 := by decide

/-- W3b, VA15. -/
theorem test_sub :
    (cycle 0x8015 (regs [(0, 0x03), (1, 0x05)])).getV 0 = 0xFE ∧
    (cycle 0x8015 (regs [(0, 0x03), (1, 0x05)])).getV vf = 0 ∧
    (cycle 0x8015 (regs [(0, 0x05), (1, 0x05)])).getV vf = 1 := by decide

/-- VA18, VA19. -/
theorem test_subn :
    (cycle 0x8017 (regs [(0, 0x03), (1, 0x05)])).getV 0 = 0x02 ∧
    (cycle 0x8017 (regs [(0, 0x03), (1, 0x05)])).getV vf = 1 ∧
    (cycle 0x8017 (regs [(0, 0x05), (1, 0x03)])).getV 0 = 0xFE ∧
    (cycle 0x8017 (regs [(0, 0x05), (1, 0x03)])).getV vf = 0 := by decide

/-- VA21, VA23. -/
theorem test_shr :
    (cycle 0x8476 (regs [(4, 0x05), (7, 0xFF)])).getV 4 = 0x02 ∧
    (cycle 0x8476 (regs [(4, 0x05), (7, 0xFF)])).getV vf = 1 ∧
    (cycle 0x8F06 (regs [(vf, 0x03)])).getV vf = 1 := by decide

/-- VA25, VA26. -/
theorem test_shl :
    (cycle 0x840E (regs [(4, 0x81)])).getV 4 = 0x02 ∧ (cycle 0x840E (regs [(4, 0x81)])).getV vf = 1 ∧
    (cycle 0x847E (regs [(4, 0x40), (7, 0xFF)])).getV 4 = 0x80 ∧
    (cycle 0x847E (regs [(4, 0x40), (7, 0xFF)])).getV vf = 0 := by decide

/-- VA29: whatever is drawn. -/
theorem test_rnd_zero_mask : (after (exec (.rnd 3 0x00) State.reset)).getV 3 = 0 := by
  simp [after, exec, execRnd, State.draw]

/-! ## Index register and memory -/

/-- VM1. -/
theorem test_ld_i : (cycle 0xA2F0 State.reset).i = 0x2F0 := by decide

/-- VM2, VM3. -/
theorem test_add_i :
    (cycle 0xF21E { regs [(2, 2), (vf, 0x33)] with i := 0xFFF }).i = 0x1001 ∧
    (cycle 0xF21E { regs [(2, 2), (vf, 0x33)] with i := 0xFFF }).getV vf = 0x33 ∧
    (cycle 0xF01E { regs [(0, 1)] with i := 0xFFFF }).i = 0 := by decide

/-- VM4, VM5: the parameter set. -/
theorem test_add_i_flag :
    let p : Params := { defaultParams with fx1eSetsVf := true }
    (cycle 0xF21E { regs [(2, 2)] with i := 0xFFF, params := p }).getV vf = 1 ∧
    (cycle 0xF21E { regs [(2, 1), (vf, 9)] with i := 0xFFE, params := p }).getV vf = 0 := by decide

/-- VM6 to VM8. -/
theorem test_ld_f :
    (cycle 0xF529 (regs [(5, 0x0B)])).i = 0x037 ∧ (cycle 0xF529 (regs [(5, 0x0F)])).i = 0x04B ∧
    (cycle 0xF529 (regs [(5, 0x1A)])).i = 0x032 := by decide

/-- VM9, VM10. -/
theorem test_ld_f_parameters :
    (cycle 0xF529 { regs [(5, 0x1A)] with
      params := { defaultParams with fontDigitPolicy := .fullByte } }).i = 0x082 ∧
    (cycle 0xF529 { regs [(5, 0x02)] with params := { defaultParams with fontBase := 0x050 } }).i = 0x05A := by
  decide

/-- VM11, VM16. -/
theorem test_ld_b :
    let t := cycle 0xF033 { regs [(0, 0x9C)] with i := 0x300 }
    let u := cycle 0xF033 { regs [(0, 0x7B)] with i := 0xFFD }
    [t.readByte 0x300, t.readByte 0x301, t.readByte 0x302] = [1, 5, 6] ∧ t.i = 0x300 ∧
    [u.readByte 0xFFD, u.readByte 0xFFE, u.readByte 0xFFF] = [1, 2, 3] := by decide

/-- VM15. -/
theorem test_ld_b_out_of_bounds :
    let t := cycle 0xF033 { poke (regs [(0, 0xFF)]) 0xFFE [0xAA] with i := 0xFFE }
    t.mode = .halted (.outOfBounds 0x1000) ∧ t.readByte 0xFFE = 0xAA := by decide

/-- VM17, VM25: the font is not protected. -/
theorem test_store_regs :
    let t := cycle 0xF255 { regs [(0, 1), (1, 2), (2, 3), (3, 4)] with i := 0x300 }
    [t.readByte 0x300, t.readByte 0x301, t.readByte 0x302, t.readByte 0x303] = [1, 2, 3, 0] ∧ t.i = 0x300 ∧
    (cycle 0xF055 (regs [(0, 0xEE)])).readByte 0 = 0xEE := by decide

/-- VM20. -/
theorem test_store_regs_out_of_bounds :
    let t := cycle 0xFF55 { regs [(0, 1)] with i := 0xFF1 }
    t.mode = .halted (.outOfBounds 0x1000) ∧ t.readByte 0xFF1 = 0 := by decide

/-- VM21, VM22: glyph 0. -/
theorem test_load_regs :
    let t := cycle 0xF265 { poke (regs [(3, 7)]) 0x300 [0x0A, 0x0B, 0x0C] with i := 0x300 }
    let u := cycle 0xF465 State.reset
    t.v.toList.take 4 = [0x0A, 0x0B, 0x0C, 7] ∧ t.i = 0x300 ∧
    u.v.toList.take 6 = [0xF0, 0x90, 0x90, 0x90, 0xF0, 0] := by decide

/-- VM23, VM24: the lowest bad address, not wrapped. -/
theorem test_load_regs_out_of_bounds :
    (cycle 0xF065 { State.reset with i := 0x1000 }).mode = .halted (.outOfBounds 0x1000) ∧
    (cycle 0xF165 { State.reset with i := 0xFFFF }).mode = .halted (.outOfBounds 0xFFFF) := by decide

/-! ## Input and timers -/

/-- VK1, VK2. -/
theorem test_skip_key :
    (cycle 0xE19E ((regs [(1, 5)]).setKey 5 true)).pc = 0x204 ∧ (cycle 0xE19E (regs [(1, 5)])).pc = 0x202 ∧
    (cycle 0xE1A1 ((regs [(1, 5)]).setKey 5 true)).pc = 0x202 ∧
    (cycle 0xE1A1 (regs [(1, 5)])).pc = 0x204 := by decide

/-- VK3, VK4: a value above 15 under both policies. -/
theorem test_skip_key_above_15 :
    (cycle 0xE19E (regs [(1, 0x10)])).mode = .halted (.keyIndexOutOfRange 0x10) ∧
    (cycle 0xE19E ({ regs [(1, 0x10)] with
      params := { defaultParams with keyIndexPolicy := .lowNibble } }.setKey 0 true)).pc = 0x204 := by decide

/-- VK5, VK7: the first key of the wait. -/
theorem test_ld_key :
    let t := cycle 0xF30A State.reset
    let u := after (step (command (.keyDown 5) (command (.keyDown 0xA) t)))
    t.mode = .waitingForKey 3 ∧ t.pc = 0x202 ∧ t.wake = none ∧
    u.getV 3 = 0x0A ∧ u.mode = .active ∧ u.pc = 0x202 ∧ u.key 5 = true := by decide

/-- VK9, VK10, VK11: held before the wait, released before the cycle, down before the wait. -/
theorem test_ld_key_latch :
    let held := after (step (cycle 0xF30A (State.reset.setKey 2 true)))
    let up := after (step (command (.keyUp 4) (command (.keyDown 4) (cycle 0xF30A State.reset))))
    let early := after (step (cycle 0xF30A (command (.keyDown 7) State.reset)))
    held.mode = .waitingForKey 3 ∧ up.getV 3 = 4 ∧ up.mode = .active ∧ up.key 4 = false ∧
    early.mode = .waitingForKey 3 := by decide

/-- VT4. -/
theorem test_delay_timer :
    let t := cycle 0xF115 (regs [(1, 0x3C)])
    t.dt = 0x3C ∧ (cycle 0xF207 t).getV 2 = 0x3C := by decide

/-- VT3. -/
theorem test_sound_timer :
    (cycle 0xF218 (regs [(2, 2)])).st = 2 ∧ (cycle 0xF218 (regs [(2, 2)])).events = [] := by decide

/-! ## Cycle and commands -/

/-- VE9 to VE11. -/
theorem test_fetch_bound :
    let t := cycle 0x6A01 { State.reset with pc := 0xFFE }
    t.getV 10 = 1 ∧ t.pc = 0x1000 ∧ (after (step t)).mode = .halted (.fetchOutOfBounds 0x1000) ∧
    (after (step { State.reset with pc := 0xFFF })).mode = .halted (.fetchOutOfBounds 0xFFF) := by decide

/-- VE2 and W11: an unknown word halts, and stays halted. -/
theorem test_unknown_word :
    (after (step State.reset)).mode = .halted (.unknownOpcode 0) ∧
    (cycle 0x0123 State.reset).result = .error (.unknownOpcode 0x123) ∧
    after (step (cycle 0x0123 State.reset)) = cycle 0x0123 State.reset := by decide

/-- VT6, VT2's third tick. -/
theorem test_tick :
    let t := command .tick { State.reset with dt := 0x10, st := 1 }
    t.dt = 0x0F ∧ t.st = 0 ∧ t.events = [.beep] ∧ (command .tick t).events = [] := by decide

/-- VK12. -/
theorem test_invalid_key : (command (.keyDown 16) State.reset).result = .invalidKeyCode := by decide

/-- VL5, VL6, W10. -/
theorem test_reset :
    let t := command .reset { poke (regs [(3, 0x77)]) 0 [0] with dt := 9, st := 9, mode := .waitingForKey 1 }
    t = State.reset ∧ t.readByte 0 = 0xF0 := by decide

/-- VL2, VL4. -/
theorem test_load_too_large :
    let t := command (.load (List.replicate 3585 0xAA)) State.reset
    t.mode = .halted .imageTooLarge ∧ t.readByte 0x200 = 0 ∧ (command .reset t).mode = .active := by
  decide +kernel

/-- P5's image, loaded. -/
theorem test_load :
    let t := command (.load [0x60, 0x12, 0x61]) beforeLoad
    t.loaded = true ∧ [t.readByte 0x200, t.readByte 0x202, t.readByte 0x203, t.readByte 0x4F] =
      [0x60, 0x61, 0, 0x80] := by decide

/-- VL7. -/
theorem test_no_session : runCommand .tick beforeLoad = .fault .noSession := rfl

/-! ## Witnesses: for each statement with hypotheses, a state and operands that meet them all

Where a statement has several clauses, the parts of its witness stand in the clauses' order, at the edges of
their ranges. -/

/-- A state with a stored byte, a return address, pixels and a held key. -/
def busy : State :=
  { State.reset with
    v := #v[5, 0x3E, 0, 0, 0, 0, 0, 0, 0, 0, 0, 0, 0, 0, 0, 7]
    i := 0x300
    stack := [0x202, 0x1000]
    dt := 3
    st := 2
    mem := [(0x300, 0xC0), (0x301, 0x81)]
    disp := (Vector.replicate 32 0#64).set 0 1#64
    keys := (Vector.replicate 16 false).set 5 true }

/-- `busy` in a key wait for `V3`. -/
def waiting : State := { busy with mode := .waitingForKey 3 }

/-- The same wait with key 9 latched. -/
def latched : State := { waiting with wake := some 9 }

/-- `busy` after a halt. -/
def halted : State := busy.halt .stackUnderflow

theorem busy_keeps_the_canonical_form : busy.memWf := by decide

/-- Every clause of the invariant, the latch's with a key latched in a wait. -/
theorem latched_meets_the_invariant : latched.Inv :=
  { memory := busy_keeps_the_canonical_form
    depth := by decide
    saved := by simp [latched, waiting, busy]
    pcBound := by decide
    latch := fun _ => ⟨3, rfl⟩
    params := rfl
    image := rfl }

theorem witness_EncodeOfDecodeIsTheWord : decode 0x8476#16 = .ok (.shr 4 7) := by decide

theorem witness_WordsDecodeExactlyWhenARowMatches :
    ((0x8006#16, 0xF00F#16) ∈ opcodeRows ∧ 0x8476#16 &&& 0xF00F#16 = 0x8006#16) ∧
    ∀ r ∈ opcodeRows, 0x8478#16 &&& r.2 ≠ r.1 :=
  ⟨⟨by simp [opcodeRows], by decide⟩, by simp [opcodeRows]⟩

theorem witness_StepRunsTheDecodedInstruction :
    let s : State := { busy with pc := 0xFFE, mem := [(0xFFE, 0x80), (0xFFF, 0x14)] }
    s.loaded = true ∧ s.pending = [] ∧ s.mode = .active ∧ s.pc.toNat + 1 = 4095 ∧
    decode (s.readByte s.pc.toNat ++ s.readByte (s.pc.toNat + 1)) = .ok (.addReg 0 1) := by
  decide

theorem witness_StepTakesTheOldestCommand :
    (busy.withPending [.tick, .reset]).pending = .tick :: [.reset] ∧ busy.pending = [] := by decide

theorem witness_CycleHaltsOnBadFetchThenOnUnknownWord :
    let s : State := { busy with pc := 0xFFF }
    let t : State := { busy with pc := 0xFFE, mem := [(0xFFE, 0x51), (0xFFF, 0x21)] }
    (s.loaded = true ∧ s.mode = .active ∧ 4096 = s.pc.toNat + 1) ∧
    t.loaded = true ∧ t.mode = .active ∧ t.pc.toNat + 1 = 4095 ∧
    0x5121#16 = t.readByte t.pc.toNat ++ t.readByte (t.pc.toNat + 1) ∧
    ∀ i, decode 0x5121#16 ≠ .ok i := by
  refine ⟨by decide, by decide, by decide, by decide, by decide, fun i h => ?_⟩
  have e : decode 0x5121#16 = .error (.unknownOpcode 0x5121#16) := by decide
  rw [e] at h
  cases h

theorem witness_HaltedCycleReturnsTheReasonOnly :
    halted.loaded = true ∧ halted.mode = .halted .stackUnderflow := by decide

theorem witness_WaitingCycleTakesTheLatchedKey :
    let s : State := { waiting with wake := some 15 }
    (s.loaded = true ∧ s.mode = .waitingForKey 3 ∧ s.wake = some 15) ∧
    waiting.loaded = true ∧ waiting.mode = .waitingForKey 3 ∧ waiting.wake = none := by decide

theorem witness_HaltsOfInstructionsArePrecise :
    let s : State := { busy with i := 0xFFF }
    exec (.storeRegs 1) s = .next (after (exec (.storeRegs 1) s)) ∧
    (after (exec (.storeRegs 1) s)).mode = .halted (.outOfBounds 4096) ∧
    s.mode ≠ .halted (.outOfBounds 4096) := by
  refine ⟨rfl, by decide, by decide⟩

/-- One instruction for each reason. -/
theorem witness_EachHaltReasonHasItsInstructions :
    busy.mode = .active ∧
    (after (exec (.call 0x300) { busy with stack := List.replicate 16 0x202 })).mode =
      .halted .stackOverflow ∧
    (after (exec .ret { busy with stack := [] })).mode = .halted .stackUnderflow ∧
    (after (exec (.sknp 2) (busy.setV 2 16))).mode = .halted (.keyIndexOutOfRange 16) ∧
    (after (exec (.drw 0 1 1) { busy with i := 4096 })).mode = .halted (.outOfBounds 4096) ∧
    (after (exec (.ldBcd 0) { busy with i := 0xFFFF })).mode = .halted (.outOfBounds 0xFFFF) ∧
    (after (exec (.loadRegs 15) { busy with i := 0xFF1 })).mode = .halted (.outOfBounds 4096) := by
  decide +kernel

theorem witness_OnlyCommandsBeforeTheFirstLoadStop :
    busy.loaded = true ∧ beforeLoad.loaded = false ∧ ∀ image, Command.reset ≠ .load image := by
  exact ⟨by decide, by decide, fun _ h => by cases h⟩

/-- The second clause at memory's last address. -/
theorem witness_StepKeepsTheInvariant :
    (latched.Inv ∧ step latched = .next (after (step latched))) ∧
    busy.memWf ∧ busy.memWrite 4095 1 = .ok (busy.writeByte 4095 1) :=
  ⟨⟨latched_meets_the_invariant, rfl⟩, busy_keeps_the_canonical_form, rfl⟩

/-- The largest image, the last glyph's last row, the last image byte, an address in neither. -/
theorem witness_LoadStartsAFreshSession :
    busy.params.wf = true ∧ (List.replicate 3584 0xAA#8).length = 3584 ∧ 15 < 16 ∧ 4 < 5 ∧
    3583 < (List.replicate 3584 0xAA#8).length ∧
    ¬ (busy.params.fontBase ≤ 0x1FF ∧ 0x1FF < busy.params.fontBase + 80) ∧
    ¬ (0x200 ≤ 0x1FF ∧ 0x1FF < 0x200 + (List.replicate 3584 0xAA#8).length) := by
  rw [List.length_replicate]
  decide

theorem witness_LoadOfATooLargeImageHalts : (List.replicate 3585 0xAA#8).length = 3585 :=
  List.length_replicate

theorem witness_ResetRestoresThePostLoadState : waiting.loaded = true := by decide

/-- Also for DumpDisplayIsRowMajor, DumpsOfMemoryAndCpuReadOnly, whose one hypothesis is a session. -/
theorem witness_TickStepsBothTimers : busy.loaded = true ∧ busy.dt = 3 ∧ busy.st = 2 := by decide

theorem witness_DumpDisplayIsRowMajor : busy.loaded = true ∧ busy.disp.pixel 0 0 = true := by decide

theorem witness_DumpsOfMemoryAndCpuReadOnly : halted.loaded = true ∧ halted.readByte 0x300 = 0xC0 := by
  decide

/-- Two ticks of a sound timer that holds 2: the third does not beep. -/
theorem witness_TicksCountDownAndStayAtZero :
    let s := busy.withPending (List.replicate 2 .tick ++ .tick :: [.reset])
    s.loaded = true ∧ s.pending = List.replicate 2 .tick ++ .tick :: [.reset] ∧ s.st.toNat = 2 := by decide

/-- Code 15; a wait with no key latched, no wait, a wait with one latched. -/
theorem witness_KeyDownSetsItsFlagAndLatchesTheFirst :
    (15 : KeyCode).val = 15 ∧
    (waiting.loaded = true ∧ (∃ x, waiting.mode = .waitingForKey x) ∧ waiting.wake = none) ∧
    (halted.loaded = true ∧ ∀ x, halted.mode ≠ .waitingForKey x) ∧
    latched.wake ≠ none :=
  ⟨rfl, ⟨by decide, ⟨3, rfl⟩, by decide⟩, ⟨by decide, fun _ h => by cases h⟩, by decide⟩

theorem witness_KeyUpClearsItsFlagAndBadCodesAreDropped :
    busy.loaded = true ∧ (15 : KeyCode).val = 15 ∧ 15 < 16 := by decide

theorem witness_HaltLastsUntilResetOrLoad :
    halted.loaded = true ∧ halted.mode = .halted .stackUnderflow ∧
    ∀ c ∈ [Command.emulateCycle, .singleStep, .tick, .keyDown 3, .keyUp 16, .dumpDisplay, .dumpMemory,
      .dumpCpu], c.keepsSession = true := by decide

theorem witness_KeyWaitEndsWithItsFirstKey :
    waiting.loaded = true ∧ waiting.mode = .waitingForKey 3 ∧ waiting.wake = none ∧
    ∀ c ∈ [Command.keyDown 5, .keyUp 10, .tick, .dumpCpu], c.betweenCycles = true := by decide

/-- Every command the statement lets in, 16 being the least dropped key code. -/
theorem witness_KeyWaitLastsWithoutAKeyEvent :
    waiting.loaded = true ∧ waiting.mode = .waitingForKey 3 ∧ waiting.wake = none ∧
    ∀ c ∈ [Command.emulateCycle, .singleStep, .tick, .keyDown 16, .keyUp 5, .keyUp 16, .dumpDisplay,
      .dumpMemory, .dumpCpu], c.latchesNoKey = true := by decide

theorem witness_MemoryReadsBackWhatWasWritten :
    4096 ≤ 4096 ∧ 4095 < 4096 ∧ ¬ (4095 ≤ 4094 ∧ 4094 < 4095 + 1) := by decide

/-- A sprite whose last byte is memory's last; one of no rows; a covered lit pixel, an uncovered one; and
the least sprite that reaches too far. -/
theorem witness_DrwFlipsExactlyTheCoveredPixels :
    (({ busy with i := 0xFFE } : State).i.toNat + (2#4).toNat = 4096) ∧ 0#4 = 0 ∧
    (busy.disp.pixel 0 0 = true ∧ spriteCovers busy busy.i.toNat (64 % 64) (32 % 32) 1 0 0) ∧
    ¬ spriteCovers busy busy.i.toNat (64 % 64) (32 % 32) 1 2 0 ∧
    LowestBad ({ busy with i := 0xFFE } : State).i.toNat (3#4).toNat 4096 := by
  refine ⟨by decide, by decide, ⟨by decide, by decide, by decide, 0, by decide, by decide, by decide⟩, ?_,
    2, by decide, by decide, by decide, by decide⟩
  rintro ⟨-, -, c, hc, hx, hb⟩
  have : c = 2 := by simp at hx; omega
  subst this
  exact absurd hb (by decide)

theorem witness_DrwTwiceRestoresTheDisplay :
    (0 : Reg) ≠ vf ∧ (1 : Reg) ≠ vf ∧ busy.i.toNat + (2#4).toNat ≤ 4096 ∧
    exec (.drw 0 1 2) busy = .next (after (exec (.drw 0 1 2) busy)) ∧
    exec (.drw 0 1 2) (after (exec (.drw 0 1 2) busy)) =
      .next (after (exec (.drw 0 1 2) (after (exec (.drw 0 1 2) busy)))) ∧
    (after (exec (.drw 0 1 2) busy)).disp ≠ busy.disp :=
  ⟨by decide, by decide, by decide, rfl, rfl, by decide +kernel⟩

theorem witness_StackPrimitivesPushAndPop :
    ({ busy with stack := List.replicate 16 0x202 } : State).stack.length = 16 ∧
    ({ busy with stack := List.replicate 15 0x202 } : State).stack.length < 16 ∧
    State.reset.stack = [] ∧ busy.stack = [0x202] ++ [0x1000] := by decide

theorem witness_CallPushesTheReturnAddress :
    ({ busy with stack := List.replicate 15 0x202 } : State).stack.length < 16 ∧
    ({ busy with stack := List.replicate 16 0x202 } : State).stack.length = 16 := by decide

theorem witness_RetPopsIntoPc :
    busy.stack = [0x202] ++ [0x1000] ∧ State.reset.stack = [] := by decide

theorem witness_RetReturnsBehindTheCall :
    busy.stack.length < 16 ∧ exec (.call 0x300) busy = .next (after (exec (.call 0x300) busy)) ∧
    ({ State.reset with stack := (after (exec (.call 0x300) busy)).stack } : State).stack =
      (after (exec (.call 0x300) busy)).stack :=
  ⟨by decide, rfl, rfl⟩

theorem witness_RegisterSkips : 0x1#4 ≠ 0 := by decide

/-- Also for SubtractionsSetDifferenceThenNoBorrow, ShiftsByOneSetTheBitShiftedOut. -/
theorem witness_AddSetsSumThenCarry : (14 : Reg) ≠ vf := by decide

theorem witness_SubtractionsSetDifferenceThenNoBorrow : (0 : Reg) ≠ vf := by decide

theorem witness_ShiftsByOneSetTheBitShiftedOut : (4 : Reg) ≠ vf := by decide

theorem witness_AddIndexSetsVfOnlyWhenConfigured :
    busy.params.fx1eSetsVf = false ∧
    ({ busy with params := { defaultParams with fx1eSetsVf := true } } : State).params.fx1eSetsVf = true := by
  decide

/-- The highest font base, both policies, memory as loaded. -/
theorem witness_LoadFontPointsAtTheGlyph :
    let p : Params := { defaultParams with fontBase := 0x1B0 }
    let q : Params := { p with fontDigitPolicy := .fullByte }
    p.wf = true ∧ p.fontDigitPolicy = .lowNibble ∧ (regs [(5, 0x1A)]).mem = [] ∧ 4 < 5 ∧
    q.wf = true ∧ q.fontDigitPolicy = .fullByte := by decide

theorem witness_BcdStoresHundredsTensUnits :
    ({ busy with i := 0xFFD } : State).i.toNat + 3 = 4096 ∧
    LowestBad ({ busy with i := 0xFFE } : State).i.toNat 3 4096 ∧
    LowestBad ({ busy with i := 0xFFFF } : State).i.toNat 3 0xFFFF :=
  ⟨by decide, ⟨2, by decide, by decide, by decide, by decide⟩, 0, by decide, by decide, by decide, by decide⟩

theorem witness_StoreRegistersFromIndex :
    ({ busy with i := 0xFF0 } : State).i.toNat + ((15 : Reg).val + 1) = 4096 ∧ (15 : Reg) ≤ 15 ∧
    LowestBad ({ busy with i := 0xFF1 } : State).i.toNat ((15 : Reg).val + 1) 4096 :=
  ⟨by decide, by decide, 15, by decide, by decide, by decide, by decide⟩

theorem witness_LoadRegistersFromIndex :
    ({ busy with i := 0xFFF } : State).i.toNat + ((0 : Reg).val + 1) = 4096 ∧ (0 : Reg) ≤ 0 ∧ (0 : Reg) < 1 ∧
    LowestBad ({ busy with i := 0x1000 } : State).i.toNat ((0 : Reg).val + 1) 4096 :=
  ⟨by decide, by decide, by decide, 0, by decide, by decide, by decide, by decide⟩

theorem witness_StoredRegistersLoadBack :
    let t := after (exec (.storeRegs 1) busy)
    let u : State := { State.reset with i := t.i, mem := t.mem }
    busy.i.toNat + ((1 : Reg).val + 1) ≤ 4096 ∧ exec (.storeRegs 1) busy = .next t ∧ u.i = t.i ∧
    u.v ≠ t.v ∧ ∀ a, u.readByte a = t.readByte a :=
  ⟨by decide, rfl, rfl, by decide, fun _ => rfl⟩

/-- `12 0A` (program P5) stored where the next cycle fetches, in memory's last fetchable word. -/
theorem witness_FetchSeesStoredBytes :
    let s : State := { regs [(0, 0x12), (1, 0x0A)] with i := 0xFFE, pc := 0xFFC }
    let t := after (exec (.storeRegs 1) s)
    s.loaded = true ∧ s.pending = [] ∧ s.mode = .active ∧ s.i.toNat + (s.regsUpTo 1).length = 4096 ∧
    exec (.storeRegs 1) s = .next t ∧ t.pc.toNat + 1 = 4095 ∧
    0x120A#16 = s.byteAfterStore s.i.toNat (s.regsUpTo 1) t.pc.toNat ++
      s.byteAfterStore s.i.toNat (s.regsUpTo 1) (t.pc.toNat + 1) ∧
    decode 0x120A = .ok (.jp 0x20A) :=
  ⟨by decide, by decide, by decide, by decide, rfl, by decide, by decide, by decide⟩

/-- The units digit 0 as the high byte before a byte E0 that was there: the next cycle runs `CLS`. -/
theorem witness_FetchSeesStoredBytes_bcd :
    let s : State := { regs [(0, 10)] with i := 0x200, mem := [(0x203, 0xE0)] }
    let t := after (exec (.ldBcd 0) s)
    s.loaded = true ∧ s.pending = [] ∧ s.mode = .active ∧
    s.i.toNat + (bcdDigits (s.getV 0)).length ≤ 4096 ∧ exec (.ldBcd 0) s = .next t ∧
    t.pc.toNat + 1 < 4096 ∧
    0x00E0#16 = s.byteAfterStore s.i.toNat (bcdDigits (s.getV 0)) t.pc.toNat ++
      s.byteAfterStore s.i.toNat (bcdDigits (s.getV 0)) (t.pc.toNat + 1) ∧
    decode 0x00E0 = .ok .cls :=
  ⟨by decide, by decide, by decide, by decide, rfl, by decide, by decide, by decide⟩

/-- The digits 0 and 1 side by side are an unknown word. -/
theorem witness_FetchSeesStoredBytes_unknown :
    let s : State := { regs [(0, 10)] with i := 0x202 }
    let t := after (exec (.ldBcd 0) s)
    exec (.ldBcd 0) s = .next t ∧
    0x0001#16 = s.byteAfterStore s.i.toNat (bcdDigits (s.getV 0)) t.pc.toNat ++
      s.byteAfterStore s.i.toNat (bcdDigits (s.getV 0)) (t.pc.toNat + 1) ∧
    ∀ j, decode 0x0001#16 ≠ .ok j := by
  refine ⟨rfl, by decide, fun j h => ?_⟩
  have e : decode 0x0001#16 = .error (.unknownOpcode 0x0001#16) := by decide
  rw [e] at h
  cases h

/-- The highest key code, a value above it under each policy. -/
theorem witness_KeySkipsTestTheNamedKey :
    let s : State := { busy.setV 2 16 with params := { defaultParams with keyIndexPolicy := .lowNibble } }
    ((busy.setV 2 15).getV 2).toNat = (15 : KeyCode).val ∧
    (s.params.keyIndexPolicy = .lowNibble ∧ (s.getV 2).toNat % 16 = (0 : KeyCode).val) ∧
    15 < ((busy.setV 2 16).getV 2).toNat ∧ (busy.setV 2 16).params.keyIndexPolicy = .halt := by decide

theorem witness_EveryInstructionIsTwoBytes :
    decodeBytes [0x00, 0xE0, 0xFF] = .ok (.cls, [0xFF]) ∧ [0x00#8].length < 2 := by decide

/-- For each piece of state an instruction that does change it. -/
theorem witness_EachPieceOfStateHasItsWriters :
    (after (exec .cls busy)).disp ≠ busy.disp ∧ (after (exec (.ldDt 0) busy)).dt ≠ busy.dt ∧
    (after (exec (.ldSt 0) busy)).st ≠ busy.st ∧ (after (exec .ret busy)).stack ≠ busy.stack ∧
    (after (exec (.addI 0) busy)).i ≠ busy.i ∧ (after (exec (.ldBcd 0) busy)).mem ≠ busy.mem ∧
    (after (exec (.ldKey 0) latched)).wake ≠ some 9 ∧
    exec (.rnd 0 0) busy = .next (after (exec (.rnd 0 0) busy)) ∧
    (after (exec (.rnd 0 0) busy)).draws ≠ busy.draws :=
  ⟨by decide, by decide, by decide, by decide, by decide, by decide, by decide, rfl, by decide⟩

/-- The same for registers, mode (a wait, a halt), `PC` (a skip, a jump), events and result. -/
theorem witness_EachPieceOfStateHasItsWriters_control :
    (after (exec (.loadRegs 1) busy)).getV 1 ≠ busy.getV 1 ∧
    (after (exec (.ldKey 0) busy)).mode ≠ busy.mode ∧
    (after (exec (.call 0x300) { busy with stack := List.replicate 16 0x202 })).mode ≠ busy.mode ∧
    (after (exec (.seImm 0 5) busy)).pc ≠ busy.pc + 2#16 ∧ (after (exec (.jp 0x300) busy)).pc ≠ busy.pc + 2#16 ∧
    (after (exec .cls busy)).events ≠ busy.events ∧
    (after (exec .ret { busy with stack := [] })).result ≠ busy.result := by decide

theorem witness_VfHasItsWriters :
    exec (.addReg 0 1) busy = .next (after (exec (.addReg 0 1) busy)) ∧
    (after (exec (.addReg 0 1) busy)).getV vf ≠ busy.getV vf := ⟨rfl, by decide⟩

theorem witness_InputsAreObservedOnlyWhereTheSpecSays :
    exec (.ldBcd 0) busy = .next (after (exec (.ldBcd 0) busy)) ∧
    (∀ x, Instr.ldBcd 0 ≠ .skp x) ∧ (∀ x, Instr.ldBcd 0 ≠ .sknp x) ∧ (∀ x, Instr.ldBcd 0 ≠ .ldFromDt x) ∧
    (∀ x, Instr.ldBcd 0 ≠ .ldDt x) ∧ (∀ x, Instr.ldBcd 0 ≠ .ldSt x) ∧
    exec (.ldDt 0) busy = .next (after (exec (.ldDt 0) busy)) ∧
    exec (.ldSt 0) busy = .next (after (exec (.ldSt 0) busy)) :=
  ⟨rfl, fun _ => nofun, fun _ => nofun, fun _ => nofun, fun _ => nofun, fun _ => nofun, rfl, rfl⟩

end Sys2Proof.Tests
end

/-! # Proofs of the family `10_state.md` -/

/-! ## What an instruction can do

Each instruction that can halt is `commit` over the one primitive that can fail in it; from that,
`Effect` lists what any instruction leaves behind. -/

namespace Sys2Proof.Machine

section

variable (s : State) (x y : Reg)

theorem exec_ret : exec .ret s = s.commit (s.pop.map fun p => p.2.setPc p.1) := by
  simp only [exec, execRet]
  rcases s.pop with _ | ⟨_, _⟩ <;> rfl

theorem exec_call (nnn : BitVec 12) : exec (.call nnn) s =
    s.commit ((s.push (s.pc + 2#16)).map fun t => t.setPc (addrWord nnn)) := by
  simp only [exec, execCall]
  cases s.push (s.pc + 2#16) <;> rfl

/-- The display and the flag of a sprite of these rows (R64). -/
def State.drawn (s : State) (x y : Reg) (rows : List Byte) : Display × Bool :=
  Display.blit (spriteCol (s.getV x)) (spriteRow (s.getV y)) rows (s.disp, false)

theorem exec_drw (n : BitVec 4) : exec (.drw x y n) s =
    s.commit ((s.readRun s.dataAddr n.toNat).map fun rows =>
      ((({ s with disp := (s.drawn x y rows).1 } : State).setFlag (s.drawn x y rows).2).signal
        .repaint).advance) := by
  simp only [exec, execDrw]
  cases s.readRun s.dataAddr n.toNat <;> rfl

theorem exec_skp : exec (.skp x) s =
    s.commit ((keyOperand s.params (s.getV x)).map fun k => s.skipIf (s.key k)) := by
  simp only [exec, execSkp]
  cases keyOperand s.params (s.getV x) <;> rfl

theorem exec_sknp : exec (.sknp x) s =
    s.commit ((keyOperand s.params (s.getV x)).map fun k => s.skipIf (!s.key k)) := by
  simp only [exec, execSknp]
  cases keyOperand s.params (s.getV x) <;> rfl

/-- `ADD I` writes the flag under the parameter ... -/
theorem exec_addI_flag (hp : s.params.fx1eSetsVf = true) : exec (.addI x) s =
    .next (({ s with i := BitVec.ofNat 16 (s.i.toNat + (s.getV x).toNat) } : State).setFlag
      (indexOverflowOf (s.i.toNat + (s.getV x).toNat))).advance := by
  simp only [exec, execAddI, hp, if_true]

/-- ... and not without it (R88). -/
theorem exec_addI_noFlag (hp : s.params.fx1eSetsVf = false) : exec (.addI x) s =
    .next ({ s with i := BitVec.ofNat 16 (s.i.toNat + (s.getV x).toNat) } : State).advance := by
  simp only [exec, execAddI, hp, Bool.false_eq_true, if_false]

theorem exec_ldBcd : exec (.ldBcd x) s =
    s.commit ((s.writeRun s.dataAddr (bcdDigits (s.getV x))).map State.advance) := by
  simp only [exec, execLdBcd]
  cases s.writeRun s.dataAddr (bcdDigits (s.getV x)) <;> rfl

theorem exec_storeRegs : exec (.storeRegs x) s =
    s.commit ((s.writeRun s.dataAddr (s.regsUpTo x)).map State.advance) := by
  simp only [exec, execStoreRegs]
  cases s.writeRun s.dataAddr (s.regsUpTo x) <;> rfl

theorem exec_loadRegs : exec (.loadRegs x) s =
    s.commit ((s.readRun s.dataAddr (x.val + 1)).map fun bytes => (s.setVs 0 bytes).advance) := by
  simp only [exec, execLoadRegs]
  cases s.readRun s.dataAddr (x.val + 1) <;> rfl

end

/-- Where the primitive succeeds the instruction goes on from its answer, else it halts. -/
theorem State.commit_map_cases {α : Type} {s t : State} {r : Except HaltReason α} {f : α → State}
    (h : s.commit (r.map f) = .next t) :
    (∃ a, r = .ok a ∧ t = f a) ∨ ∃ e, t = s.halt e := by
  cases r with
  | ok a => cases h; exact .inl ⟨a, rfl, rfl⟩
  | error e => cases h; exact .inr ⟨e, rfl⟩

/-- A push that succeeds changes the stack and nothing else. -/
theorem State.push_eq_of_ok {s t : State} {v : Word} (h : s.push v = .ok t) :
    t = { s with stack := t.stack } := by
  unfold State.push at h
  split at h <;> cases h
  rfl

/-- A pop that succeeds changes the stack and nothing else. -/
theorem State.pop_eq_of_ok {s t : State} {v : Word} (h : s.pop = .ok (v, t)) :
    t = { s with stack := t.stack } := by
  unfold State.pop at h
  split at h <;> cases h
  rfl

/-- A run of writes that lands changes memory and nothing else. -/
theorem State.writeRun_eq_of_ok {s t : State} {a : Nat} {bs : List Byte}
    (h : s.writeRun a bs = .ok t) : t = { s with mem := t.mem } := by
  rcases State.writeRun_cases s a bs with ⟨u, hu, -, hf, -, -⟩ | ⟨he, -⟩
  · obtain rfl : u = t := Except.ok.inj (hu.symm.trans h)
    exact hf
  · rw [he] at h
    cases h

/-- A run of reads that succeeds answers as many bytes as it was asked for. -/
theorem State.readRun_length {s : State} {a n : Nat} {bs : List Byte}
    (h : s.readRun a n = .ok bs) : bs.length = n := by
  rw [State.readRun_eq] at h
  split at h
  · cases h
    simp
  · cases h

/-- Registers above the bytes loaded keep their value (R92). -/
theorem State.setVs_getV_above (s : State) {bytes : List Byte} {r : Reg}
    (h : bytes.length ≤ r.val) : (s.setVs 0 bytes).getV r = s.getV r := by
  rw [State.setVs_getV, if_pos (Nat.zero_le _), Nat.sub_zero, List.getD_eq_default _ _ h]

/-- The instructions that can halt (R100). -/
def MayHalt (i : Instr) : Prop :=
  i = .ret ∨ (∃ nnn, i = .call nnn) ∨ (∃ x y n, i = .drw x y n) ∨ (∃ x, i = .skp x) ∨
    (∃ x, i = .sknp x) ∨ (∃ x, i = .ldBcd x) ∨ (∃ x, i = .storeRegs x) ∨ ∃ x, i = .loadRegs x

/-- The instructions that can skip the next word (R54). -/
def IsSkip (i : Instr) : Prop :=
  (∃ x nn, i = .seImm x nn) ∨ (∃ x nn, i = .sneImm x nn) ∨ (∃ x y, i = .seReg x y) ∨
    (∃ x y, i = .sneReg x y) ∨ (∃ x, i = .skp x) ∨ ∃ x, i = .sknp x

/-- What an instruction can leave behind, one constructor per piece of state it writes beside `PC`. -/
inductive Effect (s : State) : Instr → State → Prop where
  | halt {i : Instr} {e : HaltReason} (hi : MayHalt i) : Effect s i (s.halt e)
  | jump {i : Instr} {a : Word} (hi : (∃ nnn, i = .jp nnn) ∨ ∃ nnn, i = .jpV0 nnn) :
      Effect s i (s.setPc a)
  | skip {i : Instr} {taken : Bool} (hi : IsSkip i) : Effect s i (s.skipIf taken)
  | stack {i : Instr} {st : List Word} {a : Word} (hi : i = .ret ∨ ∃ nnn, i = .call nnn) :
      Effect s i (({ s with stack := st } : State).setPc a)
  | reg {i : Instr} {x : Reg} {b : Byte} (hi : writtenRegs s.params i = [x]) :
      Effect s i (s.setV x b).advance
  | regAndFlag {i : Instr} {x : Reg} {b : Byte} {f : Bool} (hi : writtenRegs s.params i = [x, vf]) :
      Effect s i (s.setResultAndFlag x b f).advance
  | regsUpTo {x : Reg} {v : Vector Byte 16} (hv : ∀ r : Reg, x < r → v[r] = s.v[r]) :
      Effect s (.loadRegs x) ({ s with v := v } : State).advance
  | rnd {x : Reg} {nn b : Byte} :
      Effect s (.rnd x nn) (({ s with draws := s.draws + 1 } : State).setV x b).advance
  | index {i : Instr} {w : Word}
      (hi : (∃ nnn, i = .ldI nnn) ∨ (∃ x, i = .addI x) ∨ ∃ x, i = .ldFont x) :
      Effect s i ({ s with i := w } : State).advance
  | indexAndFlag {x : Reg} {w : Word} {f : Bool} (hp : s.params.fx1eSetsVf = true) :
      Effect s (.addI x) (({ s with i := w } : State).setFlag f).advance
  | clear : Effect s .cls (({ s with disp := Display.clear } : State).signal .repaint).advance
  | draw {x y : Reg} {n : BitVec 4} {d : Display} {f : Bool} :
      Effect s (.drw x y n)
        ((({ s with disp := d } : State).setFlag f).signal .repaint).advance
  | store {i : Instr} {m : Memory} (hi : (∃ x, i = .ldBcd x) ∨ ∃ x, i = .storeRegs x) :
      Effect s i ({ s with mem := m } : State).advance
  | wait {x : Reg} :
      Effect s (.ldKey x) ({ s with mode := .waitingForKey x, wake := none } : State).advance
  | delay {x : Reg} : Effect s (.ldDt x) ({ s with dt := s.getV x } : State).advance
  | sound {x : Reg} : Effect s (.ldSt x) ({ s with st := s.getV x } : State).advance

/-- A store instruction lands whole or halts. -/
theorem Effect.of_store {s t : State} {i : Instr} {a : Nat} {bs : List Byte} (hh : MayHalt i)
    (hi : (∃ x, i = .ldBcd x) ∨ ∃ x, i = .storeRegs x)
    (h : s.commit ((s.writeRun a bs).map State.advance) = .next t) : Effect s i t := by
  rcases State.commit_map_cases h with ⟨u, hu, rfl⟩ | ⟨e, rfl⟩
  · rw [State.writeRun_eq_of_ok hu]
    exact .store hi
  · exact .halt hh

/-- A key skip skips or not, or halts. -/
theorem Effect.of_keySkip {s t : State} {i : Instr} {r : Except HaltReason KeyCode}
    {taken : KeyCode → Bool} (hh : MayHalt i) (hi : IsSkip i)
    (h : s.commit (r.map fun k => s.skipIf (taken k)) = .next t) : Effect s i t := by
  rcases State.commit_map_cases h with ⟨k, -, rfl⟩ | ⟨e, rfl⟩
  · exact .skip hi
  · exact .halt hh

/-- What any instruction can do, once for all 34. -/
theorem exec_effect {i : Instr} {s t : State} (h : exec i s = .next t) : Effect s i t := by
  cases i with
  | cls => cases h; exact .clear
  | ret =>
    rw [exec_ret] at h
    rcases State.commit_map_cases h with ⟨⟨a, u⟩, hu, rfl⟩ | ⟨e, rfl⟩
    · rw [State.pop_eq_of_ok hu]
      exact .stack (.inl rfl)
    · exact .halt (.inl rfl)
  | call nnn =>
    rw [exec_call] at h
    rcases State.commit_map_cases h with ⟨u, hu, rfl⟩ | ⟨e, rfl⟩
    · rw [State.push_eq_of_ok hu]
      exact .stack (.inr ⟨nnn, rfl⟩)
    · exact .halt (by simp [MayHalt])
  | jp | jpV0 => cases h; exact .jump (by simp)
  | seImm | sneImm | seReg | sneReg => cases h; exact .skip (by simp [IsSkip])
  | ldImm | addImm | ldReg | orReg | andReg | xorReg | ldFromDt => cases h; exact .reg rfl
  | addReg | sub | shr | subn | shl => cases h; exact .regAndFlag rfl
  | rnd => cases h; exact .rnd
  | ldI | ldFont => cases h; exact .index (by simp)
  | addI x =>
    cases hp : s.params.fx1eSetsVf with
    | true =>
      rw [exec_addI_flag s x hp] at h
      cases h
      exact .indexAndFlag hp
    | false =>
      rw [exec_addI_noFlag s x hp] at h
      cases h
      exact .index (by simp)
  | drw x y n =>
    rw [exec_drw] at h
    rcases State.commit_map_cases h with ⟨rows, -, rfl⟩ | ⟨e, rfl⟩
    · exact .draw
    · exact .halt (by simp [MayHalt])
  | skp x =>
    rw [exec_skp] at h
    exact .of_keySkip (by simp [MayHalt]) (by simp [IsSkip]) h
  | sknp x =>
    rw [exec_sknp] at h
    exact .of_keySkip (by simp [MayHalt]) (by simp [IsSkip]) h
  | ldKey => cases h; exact .wait
  | ldDt => cases h; exact .delay
  | ldSt => cases h; exact .sound
  | ldBcd x =>
    rw [exec_ldBcd] at h
    exact .of_store (by simp [MayHalt]) (by simp) h
  | storeRegs x =>
    rw [exec_storeRegs] at h
    exact .of_store (by simp [MayHalt]) (by simp) h
  | loadRegs x =>
    rw [exec_loadRegs] at h
    rcases State.commit_map_cases h with ⟨bytes, hb, rfl⟩ | ⟨e, rfl⟩
    · rw [State.setVs_eq]
      refine .regsUpTo fun r hr => State.setVs_getV_above s ?_
      rw [State.readRun_length hb]
      exact hr
    · exact .halt (by simp [MayHalt])

/-! ## Which instruction writes which piece of state -/

/-- A state with the registers of `s` reads them as `s` does, whatever else it holds. -/
@[simp] theorem State.mk_getV (s : State) (i pc stack dt st mem disp keys mode wake image loaded
    params draws pending events result) (r : Reg) :
    (State.mk s.v i pc stack dt st mem disp keys mode wake image loaded params draws pending events
      result).getV r = s.getV r := rfl

/-- A register that a result and a flag changed is the destination or `VF`. -/
theorem State.setResultAndFlag_getV_ne {s : State} {x r : Reg} {b : Byte} {f : Bool}
    (h : (s.setResultAndFlag x b f).getV r ≠ s.getV r) : r = x ∨ r = vf := by
  by_contra hr
  rw [not_or] at hr
  simp [State.setResultAndFlag_getV, hr] at h

/-- Settles O58: the table read off the effects an instruction can have, one by one. -/
theorem eachPieceOfStateHasItsWriters : Obligations.EachPieceOfStateHasItsWriters := by
  intro i s t h
  cases exec_effect h with
  | @halt _ e hi =>
    have ht : ∃ r, s.halt e = s.halt r := ⟨e, rfl⟩
    simpa [ht, MayHalt] using fun _ => hi
  | jump hi => rcases hi with ⟨_, rfl⟩ | ⟨_, rfl⟩ <;> simp
  | skip hi => simpa using fun taken => .inl ⟨taken, hi⟩
  | stack hi => rcases hi with rfl | ⟨_, rfl⟩ <;> simp
  | reg hi => simp [hi]
  | regAndFlag hi => simpa [hi] using fun _ => State.setResultAndFlag_getV_ne
  | regsUpTo hv => simpa [State.getV, writtenRegs] using fun r hr => not_lt.mp (mt (hv r) hr)
  | rnd => simp [writtenRegs]
  | index hi => simpa using fun _ => hi
  | indexAndFlag hp => simp [State.setFlag_getV, writtenRegs, hp]
  | clear => simp
  | draw => simp [State.setFlag_getV, writtenRegs]
  | store hi => simpa using fun _ => hi
  | wait => simp
  | delay => simp
  | sound => simp

/-- Every register an instruction changes is one its rule writes. -/
theorem exec_getV_ne {i : Instr} {s t : State} {r : Reg} (h : exec i s = .next t)
    (hr : t.getV r ≠ s.getV r) : r ∈ writtenRegs s.params i := by
  obtain ⟨-, -, -, -, -, -, -, -, -, -, -, -, -, hregs, -⟩ := eachPieceOfStateHasItsWriters i s t h
  exact hregs r hr

/-- Settles O59: `VF` is one of the registers the instruction's rule writes (O58), and the rules that
write it are these. -/
theorem vfHasItsWriters : Obligations.VfHasItsWriters := by
  intro i s t h hvf
  have hw : vf ∈ writtenRegs s.params i := exec_getV_ne h hvf
  cases i with
  | loadRegs x =>
    have hx : vf ≤ x := by simpa [writtenRegs] using hw
    simp [Fin.last_le_iff.mp hx]
  | _ => simp_all [writtenRegs]

/-! ## Keys and timers are inputs -/

/-- `s` with other keys held and other timer values (R15, R18). -/
def State.withInputs (s : State) (ks : Vector Bool 16) (d e : Byte) : State :=
  { s with keys := ks, dt := d, st := e }

/-- What `DT` holds after the instruction, if it held `d` before (R98). -/
def dtAfter (s : State) (i : Instr) (d : Byte) : Byte :=
  match i with
  | .ldDt x => s.getV x
  | _ => d

/-- What `ST` holds after the instruction, if it held `e` before (R99). -/
def stAfter (s : State) (i : Instr) (e : Byte) : Byte :=
  match i with
  | .ldSt x => s.getV x
  | _ => e

section

variable (s : State) (ks : Vector Bool 16) (d e : Byte)

theorem State.withInputs_skipIf (taken : Bool) :
    (s.withInputs ks d e).skipIf taken = (s.skipIf taken).withInputs ks d e := by
  cases taken <;> rfl

theorem State.withInputs_setVs (k : Nat) (bs : List Byte) :
    (s.withInputs ks d e).setVs k bs = (s.setVs k bs).withInputs ks d e := by
  induction bs generalizing s k with
  | nil => rfl
  | cons b bs ih =>
    unfold State.setVs
    split
    · exact ih (s.setV _ b) (k + 1)
    · rfl

theorem State.withInputs_push (v : Word) :
    (s.withInputs ks d e).push v = (s.push v).map fun t => t.withInputs ks d e := by
  rcases lt_or_ge s.stack.length stackDepth with h | h
  · rw [s.push_eq v h, (s.withInputs ks d e).push_eq v h]
    rfl
  · rw [s.push_full v h, (s.withInputs ks d e).push_full v h]
    rfl

theorem State.withInputs_pop :
    (s.withInputs ks d e).pop = s.pop.map fun p => (p.1, p.2.withInputs ks d e) := by
  rcases List.eq_nil_or_concat' s.stack with h | ⟨older, v, h⟩
  · rw [s.pop_empty h, (s.withInputs ks d e).pop_empty h]
    rfl
  · rw [s.pop_snoc older v h, (s.withInputs ks d e).pop_snoc older v h]
    rfl

theorem State.withInputs_readRun (a n : Nat) :
    (s.withInputs ks d e).readRun a n = s.readRun a n := by
  rw [State.readRun_eq, State.readRun_eq]
  rfl

theorem State.withInputs_writeRun (a : Nat) (bs : List Byte) :
    (s.withInputs ks d e).writeRun a bs = (s.writeRun a bs).map fun t => t.withInputs ks d e := by
  induction bs generalizing s a with
  | nil => rfl
  | cons b bs ih =>
    unfold State.writeRun State.memWrite
    by_cases ha : memSize ≤ a
    · simp [ha, Except.map]
    · simp only [ha, if_false]
      exact ih (s.writeByte a b) (a + 1)

end

/-- A primitive that does not see the inputs, then a rest that keeps them: so does the instruction. -/
theorem State.withInputs_commit {α : Type} {s t : State} {ks : Vector Bool 16} {d e : Byte}
    {r r' : Except HaltReason α} {f f' : α → State} {lift : α → α}
    (h : s.commit (r.map f) = .next t) (hr : r' = r.map lift)
    (hf : ∀ a, f' (lift a) = (f a).withInputs ks d e) :
    (s.withInputs ks d e).commit (r'.map f') = .next (t.withInputs ks d e) := by
  subst hr
  cases r with
  | ok a => cases h; exact congrArg Host.Outcome.next (hf a)
  | error _ => cases h; rfl

/-- The same for a primitive whose answer holds no state. -/
theorem State.withInputs_commit_read {α : Type} {s t : State} {ks : Vector Bool 16} {d e : Byte}
    {r r' : Except HaltReason α} {f f' : α → State} (h : s.commit (r.map f) = .next t)
    (hr : r' = r) (hf : ∀ a, f' a = (f a).withInputs ks d e) :
    (s.withInputs ks d e).commit (r'.map f') = .next (t.withInputs ks d e) :=
  State.withInputs_commit h (hr.trans (congrFun Except.map_id r).symm) hf

/-- An instruction does the same whatever the keys and the timers hold, but for those that observe them,
and leaves them, but for those that write them. -/
theorem exec_withInputs {i : Instr} {s t : State} (h : exec i s = .next t) (ks : Vector Bool 16)
    (d e : Byte) (hks : ks ≠ s.keys → (∀ x, i ≠ .skp x) ∧ ∀ x, i ≠ .sknp x)
    (hd : d ≠ s.dt → ∀ x, i ≠ .ldFromDt x) :
    exec i (s.withInputs ks d e) = .next (t.withInputs ks (dtAfter s i d) (stAfter s i e)) := by
  cases i with
  | ret =>
    rw [exec_ret] at h ⊢
    exact State.withInputs_commit h (s.withInputs_pop ks d e) fun _ => rfl
  | call nnn =>
    rw [exec_call] at h ⊢
    exact State.withInputs_commit h (s.withInputs_push ks d e _) fun _ => rfl
  | seImm | sneImm | seReg | sneReg =>
    cases h
    exact congrArg Host.Outcome.next (s.withInputs_skipIf ks d e _)
  | drw x y n =>
    rw [exec_drw] at h ⊢
    exact State.withInputs_commit_read h (s.withInputs_readRun ks d e _ _) fun _ => rfl
  | skp x =>
    obtain rfl : ks = s.keys := by_contra fun hne => (hks hne).1 x rfl
    rw [exec_skp] at h ⊢
    exact State.withInputs_commit_read h rfl fun _ => s.withInputs_skipIf s.keys d e _
  | sknp x =>
    obtain rfl : ks = s.keys := by_contra fun hne => (hks hne).2 x rfl
    rw [exec_sknp] at h ⊢
    exact State.withInputs_commit_read h rfl fun _ => s.withInputs_skipIf s.keys d e _
  | ldFromDt x =>
    obtain rfl : d = s.dt := by_contra fun hne => hd hne x rfl
    cases h
    rfl
  | addI x =>
    cases hp : s.params.fx1eSetsVf with
    | true =>
      rw [exec_addI_flag s x hp] at h
      cases h
      exact exec_addI_flag (s.withInputs ks d e) x hp
    | false =>
      rw [exec_addI_noFlag s x hp] at h
      cases h
      exact exec_addI_noFlag (s.withInputs ks d e) x hp
  | ldBcd x =>
    rw [exec_ldBcd] at h ⊢
    exact State.withInputs_commit h (s.withInputs_writeRun ks d e _ _) fun _ => rfl
  | storeRegs x =>
    rw [exec_storeRegs] at h ⊢
    exact State.withInputs_commit h (s.withInputs_writeRun ks d e _ _) fun _ => rfl
  | loadRegs x =>
    rw [exec_loadRegs] at h ⊢
    exact State.withInputs_commit_read h (s.withInputs_readRun ks d e _ _) fun bytes =>
      congrArg State.advance (s.withInputs_setVs ks d e 0 bytes)
  | _ => cases h; rfl

/-- The keys and the timers after an instruction. -/
theorem exec_inputs {i : Instr} {s t : State} (h : exec i s = .next t) :
    t.keys = s.keys ∧ t.dt = dtAfter s i s.dt ∧ t.st = stAfter s i s.st := by
  have hs : exec i s = .next (t.withInputs s.keys (dtAfter s i s.dt) (stAfter s i s.st)) :=
    exec_withInputs h s.keys s.dt s.st (absurd rfl) (absurd rfl)
  have ht : t = t.withInputs s.keys (dtAfter s i s.dt) (stAfter s i s.st) :=
    Host.Outcome.next.inj (h.symm.trans hs)
  exact ⟨(congrArg State.keys ht).trans rfl, (congrArg State.dt ht).trans rfl,
    (congrArg State.st ht).trans rfl⟩

theorem dtAfter_of_ne (s : State) {i : Instr} (d : Byte) (h : ∀ x, i ≠ .ldDt x) :
    dtAfter s i d = d := by
  cases i with
  | ldDt x => exact absurd rfl (h x)
  | _ => rfl

theorem stAfter_of_ne (s : State) {i : Instr} (e : Byte) (h : ∀ x, i ≠ .ldSt x) :
    stAfter s i e = e := by
  cases i with
  | ldSt x => exact absurd rfl (h x)
  | _ => rfl

/-- Settles O60: each clause gives one of the three inputs another value (`exec_withInputs`). -/
theorem inputsAreObservedOnlyWhereTheSpecSays :
    Obligations.InputsAreObservedOnlyWhereTheSpecSays := by
  intro i s t h
  obtain ⟨hkeys, hdt, hst⟩ := exec_inputs h
  refine ⟨fun ks hskp hsknp => ?_, fun d hobs hw => ?_, ?_, fun e hw => ?_, ?_⟩
  · have hx := exec_withInputs h ks s.dt s.st (fun _ => ⟨hskp, hsknp⟩) (absurd rfl)
    rwa [← hdt, ← hst] at hx
  · have hx := exec_withInputs h s.keys d s.st (absurd rfl) fun _ => hobs
    rw [dtAfter_of_ne s d hw, ← hst] at hx
    rw [hkeys]
    exact hx
  · rintro d x rfl
    exact h
  · have hx := exec_withInputs h s.keys s.dt e (absurd rfl) (absurd rfl)
    rw [← hdt, stAfter_of_ne s e hw] at hx
    rw [hkeys]
    exact hx
  · rintro e x rfl
    exact h

/-! ## Step, reset and stack -/

/-- Settles O6: `Step()` is defined as `EmulateCycle` in a session, and neither has a step before one. -/
theorem stepTakesTheOldestCommand : Obligations.StepTakesTheOldestCommand :=
  ⟨step_cons, step_nil, fun _ => rfl⟩

/-- Settles O15, clause by clause: the memory list, the stack and the latch are empty. -/
theorem resetStateMeetsTheInvariant : Obligations.ResetStateMeetsTheInvariant where
  memory := State.reset_memWf
  depth := Nat.zero_le 16
  saved := fun _ ha => absurd ha List.not_mem_nil
  pcBound := by decide
  latch := fun hw => absurd rfl hw
  params := rfl
  image := rfl

/-- Settles O16: no address is listed at reset, so each reads as the post-load contents. -/
theorem resetStateHasTheSpecifiedValues : Obligations.ResetStateHasTheSpecifiedValues :=
  ⟨fun _ => Vector.getElem_replicate _, rfl, rfl, rfl, rfl, rfl, Display.clear_pixel,
    fun _ => Vector.getElem_replicate _, rfl, rfl, fun _ => rfl⟩

/-- Settles O33: one clause per case of `push_full`, `push_eq`, `pop_empty` and `pop_snoc`. -/
theorem stackPrimitivesPushAndPop : Obligations.StackPrimitivesPushAndPop := by
  refine ⟨fun s v h => s.push_full v h.ge, fun s v h => ?_, State.pop_empty, fun s older v h => ?_⟩
  · exact ⟨_, s.push_eq v h, rfl, List.length_append, fun _ => rfl, rfl⟩
  · exact ⟨_, s.pop_snoc older v h, rfl, by simp [h], fun _ => rfl, rfl⟩

end Sys2Proof.Machine

/-! # Proofs of the family `20_memory.md` -/

namespace Sys2Proof.Machine

/-! ## One access -/

theorem State.memWrite_outOfBounds (s : State) {a : Nat} (v : Byte) (h : memSize ≤ a) :
    s.memWrite a v = .error (.outOfBounds a) := by
  simp only [State.memWrite, h, if_true]

theorem State.memWrite_eq (s : State) {a : Nat} (v : Byte) (h : a < memSize) :
    s.memWrite a v = .ok (s.writeByte a v) := by
  simp only [State.memWrite, Nat.not_le.mpr h, if_false]

/-- A write that succeeds is inside memory, so it keeps the canonical form. -/
theorem State.memWrite_memWf {s t : State} {a : Nat} {v : Byte} (hs : s.memWf)
    (h : s.memWrite a v = .ok t) : t.memWf := by
  rcases Nat.lt_or_ge a memSize with ha | ha
  · rw [s.memWrite_eq v ha] at h
    cases h
    exact s.writeByte_memWf a v hs ha
  · rw [s.memWrite_outOfBounds v ha] at h
    cases h

/-- A run of writes that lands keeps the canonical form. -/
theorem State.writeRun_memWf {s t : State} {a : Nat} {bs : List Byte} (hs : s.memWf)
    (h : s.writeRun a bs = .ok t) : t.memWf := by
  rcases State.writeRun_cases s a bs with ⟨u, hu, -, -, hw, -⟩ | ⟨he, -⟩
  · obtain rfl : u = t := Except.ok.inj (hu.symm.trans h)
    exact hw hs
  · rw [he] at h
    cases h

/-- Settles O29: a read is its definition, a write is `memWrite_outOfBounds` or `memWrite_eq`. -/
theorem memoryReadsBackWhatWasWritten : Obligations.MemoryReadsBackWhatWasWritten := by
  refine ⟨fun _ _ => rfl, fun s a v ha => s.memWrite_outOfBounds v ha, fun s a v ha =>
    ⟨_, s.memWrite_eq v ha, ?_, fun p hp => ?_, rfl⟩⟩
  · simp [State.writeByte_readByte]
  · have hne : p ≠ a := by omega
    simp [State.writeByte_readByte, hne]

/-! ## What keeps the invariant -/

namespace State.Inv

variable {s t u : State}

/-- The invariant speaks of no piece of state but memory, the stack, `PC`, the mode, the latch, the
image and the parameters. -/
theorem of_frame (hs : s.Inv)
    (h : u = { s with
      v := u.v, i := u.i, dt := u.dt, st := u.st, disp := u.disp, keys := u.keys, draws := u.draws
      loaded := u.loaded, pending := u.pending, events := u.events, result := u.result }) :
    u.Inv := by
  rw [h]
  exact { hs with }

theorem setPc (hs : s.Inv) {a : Word} (ha : a.toNat ≤ 0x10FE) : (s.setPc a).Inv :=
  { hs with pcBound := ha }

/-- From a `PC` within the fetch bound the next instruction is at 0x1000 at most (R12). -/
theorem advance (hs : s.Inv) (hpc : s.pc.toNat + 1 < 4096) : s.advance.Inv :=
  hs.setPc (by bv_omega)

theorem skipIf (hs : s.Inv) (hpc : s.pc.toNat + 1 < 4096) (taken : Bool) :
    (s.skipIf taken).Inv := by
  cases taken with
  | true => exact hs.setPc (by bv_omega)
  | false => exact hs.advance hpc

/-- No key is latched in `Active` (R20). -/
theorem wake_eq_none (hs : s.Inv) (hm : s.mode = .active) : s.wake = none := by
  by_contra hw
  obtain ⟨x, hx⟩ := hs.latch hw
  rw [hm] at hx
  cases hx

theorem halt (hs : s.Inv) (hw : s.wake = none) (e : HaltReason) : (s.halt e).Inv :=
  { hs with latch := fun h => absurd hw h }

/-- A `CALL` that succeeds has room on the stack, and it saves the address it is given (R67). -/
theorem push (hs : s.Inv) {v : Word} (hv : v.toNat ≤ 0x1000) (h : s.push v = .ok t) : t.Inv := by
  rcases Nat.lt_or_ge s.stack.length stackDepth with hd | hd
  · rw [s.push_eq v hd] at h
    cases h
    refine { hs with depth := ?_, saved := fun a ha => ?_ }
    · simpa using hd
    · rcases List.mem_append.mp ha with ha | ha
      · exact hs.saved a ha
      · rwa [List.mem_singleton.mp ha]
  · rw [s.push_full v hd] at h
    cases h

/-- What `RET` pops is a saved address, and the rest of the stack was there before (R65). -/
theorem pop (hs : s.Inv) {v : Word} (h : s.pop = .ok (v, t)) : t.Inv ∧ v.toNat ≤ 0x1000 := by
  rcases List.eq_nil_or_concat s.stack with he | ⟨older, w, he⟩
  · rw [s.pop_empty he] at h
    cases h
  · rw [List.concat_eq_append] at he
    rw [s.pop_snoc older w he] at h
    cases h
    have hdepth := hs.depth
    have hsaved := hs.saved
    simp only [he, List.length_append, List.mem_append, List.mem_singleton] at hdepth hsaved
    exact ⟨{ hs with
        depth := by simp only; omega
        saved := fun a ha => hsaved a (.inl ha) }, hsaved _ (.inr rfl)⟩

theorem writeRun (hs : s.Inv) {a : Nat} {bs : List Byte} (h : s.writeRun a bs = .ok t) :
    t.Inv := by
  have hm := State.writeRun_memWf hs.memory h
  rw [State.writeRun_eq_of_ok h] at hm ⊢
  exact { hs with memory := hm }

end State.Inv

/-! ## Every step keeps the invariant -/

theorem addrWord_toNat_le (nnn : BitVec 12) : (addrWord nnn).toNat ≤ 0xFFF := by
  simp only [addrWord]
  bv_omega

/-- The store instructions and the bytes they store from `I` up (R90, R91). -/
def Stores (s : State) (i : Instr) (bs : List Byte) : Prop :=
  (∃ x, i = .storeRegs x ∧ bs = s.regsUpTo x) ∨ ∃ x, i = .ldBcd x ∧ bs = bcdDigits (s.getV x)

theorem exec_stores {s : State} {i : Instr} {bs : List Byte} (hi : Stores s i bs) :
    exec i s = s.commit ((s.writeRun s.dataAddr bs).map State.advance) := by
  rcases hi with ⟨x, rfl, rfl⟩ | ⟨x, rfl, rfl⟩
  · exact exec_storeRegs s x
  · exact exec_ldBcd s x

section

variable {s t : State} {i : Instr} (hs : s.Inv) (hm : s.mode = .active)
  (hpc : s.pc.toNat + 1 < 4096)

include hs

/-- `JP V0` reaches 0xFFF + 0xFF at most (R12, R72). -/
theorem exec_jump_inv (hi : (∃ nnn, i = .jp nnn) ∨ ∃ nnn, i = .jpV0 nnn)
    (h : exec i s = .next t) : t.Inv := by
  rcases hi with ⟨nnn, rfl⟩ | ⟨nnn, rfl⟩
  · cases h
    exact hs.setPc (Nat.le_trans (addrWord_toNat_le nnn) (by decide))
  · cases h
    have ha := addrWord_toNat_le nnn
    exact hs.setPc (by bv_omega)

include hm

theorem exec_ret_inv (h : exec .ret s = .next t) : t.Inv := by
  rw [exec_ret] at h
  rcases State.commit_map_cases h with ⟨⟨a, u⟩, hu, rfl⟩ | ⟨e, rfl⟩
  · obtain ⟨hinv, ha⟩ := hs.pop hu
    exact hinv.setPc (Nat.le_trans ha (by decide))
  · exact hs.halt (hs.wake_eq_none hm) e

include hpc

theorem exec_call_inv {nnn : BitVec 12} (h : exec (.call nnn) s = .next t) : t.Inv := by
  rw [exec_call] at h
  rcases State.commit_map_cases h with ⟨u, hu, rfl⟩ | ⟨e, rfl⟩
  · exact (hs.push (by bv_omega) hu).setPc (Nat.le_trans (addrWord_toNat_le nnn) (by decide))
  · exact hs.halt (hs.wake_eq_none hm) e

theorem exec_stores_inv {bs : List Byte} (hi : Stores s i bs) (h : exec i s = .next t) : t.Inv := by
  rw [exec_stores hi] at h
  rcases State.commit_map_cases h with ⟨u, hu, rfl⟩ | ⟨e, rfl⟩
  · have hupc : u.pc = s.pc := by rw [State.writeRun_eq_of_ok hu]
    exact (hs.writeRun hu).advance (by rwa [hupc])
  · exact hs.halt (hs.wake_eq_none hm) e

/-- An instruction fetched within the bound keeps the invariant: jumps, the stack and stores by what
they write, the others because they write nothing the invariant speaks of but `PC`. -/
theorem exec_inv (h : exec i s = .next t) : t.Inv := by
  cases exec_effect h with
  | halt => exact hs.halt (hs.wake_eq_none hm) _
  | jump hi => exact exec_jump_inv hs hi h
  | skip => exact hs.skipIf hpc _
  | stack hi =>
    rcases hi with rfl | ⟨nnn, rfl⟩
    · exact exec_ret_inv hs hm h
    · exact exec_call_inv hs hm hpc h
  | store hi =>
    rcases hi with ⟨x, rfl⟩ | ⟨x, rfl⟩
    · exact exec_stores_inv hs hm hpc (.inr ⟨x, rfl, rfl⟩) h
    · exact exec_stores_inv hs hm hpc (.inl ⟨x, rfl, rfl⟩) h
  | @wait x =>
    have hwait : ({ s with mode := .waitingForKey x, wake := none } : State).Inv :=
      { hs with latch := fun hw => absurd rfl hw }
    exact hwait.advance hpc
  | reg | regAndFlag | regsUpTo | rnd | index | indexAndFlag | clear | draw | delay | sound =>
    exact State.Inv.advance (hs.of_frame rfl) hpc

end

section

variable {s t : State} {c : Command} (hs : s.Inv)

include hs

theorem emulateCycle_inv (h : emulateCycle s = .next t) : t.Inv := by
  have hb : s.beginCommand.Inv := hs.of_frame rfl
  cases hm : s.mode with
  | active =>
    have hhalt := hb.halt (hs.wake_eq_none hm)
    rcases Nat.lt_or_ge (s.pc.toNat + 1) 4096 with hpc | hpc
    · cases hd : decode s.fetchWord with
      | ok i =>
        rw [emulateCycle_exec s i hm hpc hd] at h
        exact exec_inv hb hm hpc h
      | error e =>
        rw [emulateCycle_unknown s e hm hpc hd] at h
        cases h
        exact hhalt _
    · rw [emulateCycle_fetchOutOfBounds s hm hpc] at h
      cases h
      exact hhalt _
  | waitingForKey x =>
    cases hw : s.wake with
    | some k =>
      rw [emulateCycle_waiting_some s x k hm hw] at h
      cases h
      exact { hs with latch := fun hw => absurd rfl hw }
    | none =>
      rw [emulateCycle_waiting_none s x hm hw] at h
      cases h
      exact hb
  | halted r =>
    rw [emulateCycle_halted s r hm] at h
    cases h
    exact hs.of_frame rfl

/-- A session starts as the reset state does, with its own image and no byte of memory listed. -/
theorem freshSession_inv {image : List Byte} (himage : image.length ≤ maxImage) :
    (freshSession image s).Inv :=
  have hreset : State.reset.Inv := resetStateMeetsTheInvariant
  { hreset with
    memory := ⟨List.Pairwise.nil, fun _ hc => absurd hc List.not_mem_nil⟩
    params := hs.params
    image := decide_eq_true himage }

theorem cmdLoad_inv (image : List Byte) : (cmdLoad image s).Inv := by
  unfold cmdLoad
  split
  · next himage => exact freshSession_inv hs himage
  · exact (freshSession_inv hs (Nat.zero_le _)).halt rfl _

theorem cmdTick_inv : (cmdTick s).Inv := by
  unfold cmdTick
  split <;> exact hs.of_frame rfl

/-- `KeyDown` latches a key only in a wait with none latched (R20, R109). -/
theorem cmdKeyDown_inv (code : Nat) : (cmdKeyDown code s).Inv := by
  unfold cmdKeyDown
  split
  · refine { hs with latch := fun hw => ?_ }
    cases hm : s.mode with
    | waitingForKey x => exact ⟨x, hm⟩
    | active | halted => exact hs.latch (by simpa [latchKey, hm] using hw)
  · exact hs.of_frame rfl

theorem cmdKeyUp_inv (code : Nat) : (cmdKeyUp code s).Inv := by
  unfold cmdKeyUp
  split <;> exact hs.of_frame rfl

theorem sessionCommand_inv (h : sessionCommand c s = .next t) : t.Inv := by
  cases c with
  | load image => cases h; exact cmdLoad_inv hs image
  | emulateCycle | singleStep => exact emulateCycle_inv hs h
  | tick => cases h; exact cmdTick_inv hs
  | keyDown code => cases h; exact cmdKeyDown_inv hs code
  | keyUp code => cases h; exact cmdKeyUp_inv hs code
  | reset => cases h; exact freshSession_inv hs (of_decide_eq_true hs.image)
  | dumpDisplay | dumpMemory | dumpCpu => cases h; exact hs.of_frame rfl

theorem runCommand_inv (h : runCommand c s = .next t) : t.Inv := by
  cases hl : s.loaded with
  | true =>
    rw [runCommand_session c s hl] at h
    exact sessionCommand_inv hs h
  | false =>
    rw [runCommand_first c s hl] at h
    cases c with
    | load image => cases h; exact cmdLoad_inv hs image
    | _ => cases h

theorem step_inv (h : step s = .next t) : t.Inv := by
  cases hp : s.pending with
  | nil =>
    rw [step_nil s hp] at h
    exact runCommand_inv hs h
  | cons c rest =>
    rw [step_cons s c rest hp] at h
    exact runCommand_inv (hs.of_frame rfl) h

end

/-- Settles O14: a step is a command, a command a cycle or its own update, a cycle an instruction, a key
that ends a wait, or a halt; each of them keeps the invariant. -/
theorem stepKeepsTheInvariant : Obligations.StepKeepsTheInvariant :=
  ⟨fun _ _ => step_inv, fun _ _ _ _ => State.memWrite_memWf⟩

/-! ## The fetch of a cycle -/

theorem decode_eq_error {w : Word} (h : ∀ i, decode w ≠ .ok i) : ∃ e, decode w = .error e := by
  cases hd : decode w with
  | ok i => exact absurd hd (h i)
  | error e => exact ⟨e, rfl⟩

/-- In a session with no command waiting a step is a cycle (R25). -/
theorem step_eq_emulateCycle {s : State} (hl : s.loaded = true) (hp : s.pending = []) :
    step s = emulateCycle s :=
  (step_nil s hp).trans (runCommand_session .emulateCycle s hl)

/-- Settles O5: `fetchWord` is by definition the two bytes at `PC`, the high byte first. -/
theorem stepRunsTheDecodedInstruction : Obligations.StepRunsTheDecodedInstruction :=
  fun s i hl hp hm hpc hd => (step_eq_emulateCycle hl hp).trans (emulateCycle_exec s i hm hpc hd)

/-- Settles O7: a halt of a cycle forgets that the command began (`beginCommand_halt`). -/
theorem cycleHaltsOnBadFetchThenOnUnknownWord :
    Obligations.CycleHaltsOnBadFetchThenOnUnknownWord := by
  refine ⟨fun s hl hm hpc => ?_, fun s w hl hm hpc hw hd => ?_⟩
  · exact (runCommand_session _ s hl).trans (emulateCycle_fetchOutOfBounds s hm hpc)
  · subst hw
    obtain ⟨e, he⟩ := decode_eq_error hd
    exact (runCommand_session _ s hl).trans (emulateCycle_unknown s e hm hpc he)

/-- A store inside memory lands: memory is as it was with the bytes in it, and nothing else but `PC`
changes (R90, R91). -/
theorem exec_stores_lands {s t : State} {i : Instr} {bs : List Byte} (hi : Stores s i bs)
    (hb : s.i.toNat + bs.length ≤ 4096) (h : exec i s = .next t) :
    t = { s with mem := t.mem, pc := t.pc } ∧
      ∀ p, t.readByte p = s.byteAfterStore s.i.toNat bs p := by
  rw [exec_stores hi] at h
  rcases State.writeRun_cases s s.dataAddr bs with ⟨u, hu, -, hf, -⟩ | ⟨-, hlt⟩
  · rw [hu] at h
    cases h
    refine ⟨?_, fun p => State.writeRun_byteAfterStore s u _ bs hu p⟩
    rw [hf]
    rfl
  · exact absurd hb (Nat.not_le.mpr hlt)

/-- Settles O53: the state after the store has the stored bytes in memory, and its next step fetches from
that memory as any step does (O5, O7). -/
theorem fetchSeesStoredBytes : Obligations.FetchSeesStoredBytes := by
  intro i bs s t w hl hp hm hi hb h hpc hw
  obtain ⟨hf, hread⟩ := exec_stores_lands hi hb h
  rw [← hread, ← hread] at hw
  have hl' : t.loaded = true := by rw [hf]; exact hl
  have hp' : t.pending = [] := by rw [hf]; exact hp
  have hm' : t.mode = .active := by rw [hf]; exact hm
  refine ⟨fun j hj => ?_, fun hd => ?_⟩
  · exact stepRunsTheDecodedInstruction t j hl' hp' hm' hpc (hw ▸ hj)
  · obtain ⟨-, hunknown⟩ := cycleHaltsOnBadFetchThenOnUnknownWord
    exact (step_nil t hp').trans (hunknown t w hl' hm' hpc hw hd)

end Sys2Proof.Machine

/-! # Proofs of the family `30_encoding.md` -/

namespace Sys2Proof

/-! ## The word of an instruction decodes to it -/

/-- The fields that the decoder looks at read back from each layout (`opField_wordXNN` and its like). -/
theorem decode_encode (i : Instr) : decode (encode i) = .ok i := by
  cases i with
  | cls | ret => rfl
  | jp | call | ldI | jpV0 | seImm | sneImm | ldImm | addImm | rnd | seReg | sneReg | drw =>
    simp [encode, decode]
  | ldReg | orReg | andReg | xorReg | addReg | sub | shr | subn | shl =>
    simp [encode, decode, decodeMajor8]
  | skp | sknp => simp [encode, decode, decodeMajorE]
  | ldKey | ldFromDt | ldDt | ldSt | addI | ldFont | ldBcd | storeRegs | loadRegs =>
    simp [encode, decode, decodeMajorF]

/-- What `decodeBytes` accepts: two bytes whose word decodes, and whatever follows them. -/
theorem decodeBytes_eq_ok_iff {bytes rest : List Byte} {i : Instr} :
    decodeBytes bytes = .ok (i, rest) ↔
      ∃ hi lo, bytes = hi :: lo :: rest ∧ decode (wordOfBytes hi lo) = .ok i := by
  match bytes with
  | [] | [_] => simp [decodeBytes]
  | hi :: lo :: tail =>
    cases hd : decode (wordOfBytes hi lo) <;> simp [decodeBytes, hd, and_comm, eq_comm]

/-- Settles O2: on words by `decode_encode`; on bytes because the two bytes of a word make that word again
(`wordOfBytes_bytes`). -/
theorem decodeOfEncodeIsTheInstruction : Obligations.DecodeOfEncodeIsTheInstruction := fun i =>
  ⟨decode_encode i, decodeBytes_eq_ok_iff.mpr
    ⟨_, _, rfl, (congrArg decode (wordOfBytes_bytes (encode i))).trans (decode_encode i)⟩⟩

/-! ## A word that decodes is the word of its instruction -/

section

variable {w : Word} {op n : BitVec 4} {nn : Byte}

theorem wordNNN_of_op (hop : opField w = op) : wordNNN op (nnnField w) = w := by
  rw [← hop, wordNNN_fields]

theorem wordXNN_of_op (hop : opField w = op) : wordXNN op (xField w) (nnField w) = w := by
  rw [← hop, wordXNN_fields]

theorem wordXNN_of_op_nn (hop : opField w = op) (hnn : nnField w = nn) :
    wordXNN op (xField w) nn = w := by
  rw [← hnn, wordXNN_of_op hop]

theorem wordXYN_of_op (hop : opField w = op) :
    wordXYN op (xField w) (yField w) (nField w) = w := by
  rw [← hop, wordXYN_fields]

theorem wordXYN_of_op_n (hop : opField w = op) (hn : nField w = n) :
    wordXYN op (xField w) (yField w) n = w := by
  rw [← hn, wordXYN_of_op hop]

end

/-- The two answers a decoder may give for the word `w`: an instruction that has this word, or
`unknownOpcode w` (R55, R57). -/
inductive DecodeAnswer (w : Word) : Except DecodeError Instr → Prop where
  | instr {i : Instr} (hi : encode i = w) : DecodeAnswer w (.ok i)
  | unknown : DecodeAnswer w (.error (.unknownOpcode w))

section

variable (w : Word)

theorem decodeMajor0_answer : DecodeAnswer w (decodeMajor0 w) := by
  unfold decodeMajor0
  split
  · exact .instr (Eq.symm ‹_›)
  · split
    · exact .instr (Eq.symm ‹_›)
    · exact .unknown

theorem decodeMajor8_answer (hop : opField w = 0x8#4) : DecodeAnswer w (decodeMajor8 w) := by
  unfold decodeMajor8
  split
  case h_10 => exact .unknown
  all_goals exact .instr (wordXYN_of_op_n hop ‹nField w = _›)

theorem decodeMajorE_answer (hop : opField w = 0xE#4) : DecodeAnswer w (decodeMajorE w) := by
  unfold decodeMajorE
  split
  case h_3 => exact .unknown
  all_goals exact .instr (wordXNN_of_op_nn hop ‹nnField w = _›)

theorem decodeMajorF_answer (hop : opField w = 0xF#4) : DecodeAnswer w (decodeMajorF w) := by
  unfold decodeMajorF
  split
  case h_10 => exact .unknown
  all_goals exact .instr (wordXNN_of_op_nn hop ‹nnField w = _›)

/-- The branches of `SE Vx, Vy` and `SNE Vx, Vy`, whose `n` must be 0 (R55, R56). -/
theorem ite_nField_answer {op : BitVec 4} {i : Instr} (hop : opField w = op)
    (hi : encode i = wordXYN op (xField w) (yField w) 0x0#4) :
    DecodeAnswer w (if nField w = 0x0#4 then .ok i else .error (.unknownOpcode w)) := by
  split
  · exact .instr (hi.trans (wordXYN_of_op_n hop ‹nField w = _›))
  · exact .unknown

/-- What `decode` answers, once for all its branches. -/
theorem decode_answer : DecodeAnswer w (decode w) := by
  unfold decode
  split
  next => exact decodeMajor0_answer w
  next hop => exact .instr (wordNNN_of_op hop)
  next hop => exact .instr (wordNNN_of_op hop)
  next hop => exact .instr (wordXNN_of_op hop)
  next hop => exact .instr (wordXNN_of_op hop)
  next hop => exact ite_nField_answer w hop rfl
  next hop => exact .instr (wordXNN_of_op hop)
  next hop => exact .instr (wordXNN_of_op hop)
  next hop => exact decodeMajor8_answer w hop
  next hop => exact ite_nField_answer w hop rfl
  next hop => exact .instr (wordNNN_of_op hop)
  next hop => exact .instr (wordNNN_of_op hop)
  next hop => exact .instr (wordXNN_of_op hop)
  next hop => exact .instr (wordXYN_of_op hop)
  next hop => exact decodeMajorE_answer w hop
  next hop => exact decodeMajorF_answer w hop
  next => exact .unknown

end

theorem encode_of_decode {w : Word} {i : Instr} (h : decode w = .ok i) : encode i = w := by
  have ha := decode_answer w
  rw [h] at ha
  cases ha with
  | instr hi => exact hi

theorem decode_error_unknown {w : Word} {e : DecodeError} (h : decode w = .error e) :
    e = .unknownOpcode w := by
  have ha := decode_answer w
  rw [h] at ha
  cases ha with
  | unknown => rfl

/-- Settles O3: each branch of the decoder has tested every fixed bit of the word and read every other bit
into a field of the instruction (`decode_answer`). -/
theorem encodeOfDecodeIsTheWord : Obligations.EncodeOfDecodeIsTheWord := fun _ _ => encode_of_decode

/-! ## The rows of the opcode table -/

open Laws

theorem encode_matches_tableRow : ∀ i : Instr, TableRow.Statement i
  | .cls => TableRow.cls
  | .ret => TableRow.ret
  | .jp nnn => TableRow.jp nnn
  | .call nnn => TableRow.call nnn
  | .seImm x nn => TableRow.seImm x nn
  | .sneImm x nn => TableRow.sneImm x nn
  | .seReg x y => TableRow.seReg x y
  | .sneReg x y => TableRow.sneReg x y
  | .ldImm x nn => TableRow.ldImm x nn
  | .addImm x nn => TableRow.addImm x nn
  | .ldReg x y => TableRow.ldReg x y
  | .orReg x y => TableRow.orReg x y
  | .andReg x y => TableRow.andReg x y
  | .xorReg x y => TableRow.xorReg x y
  | .addReg x y => TableRow.addReg x y
  | .sub x y => TableRow.sub x y
  | .shr x y => TableRow.shr x y
  | .subn x y => TableRow.subn x y
  | .shl x y => TableRow.shl x y
  | .ldI nnn => TableRow.ldI nnn
  | .jpV0 nnn => TableRow.jpV0 nnn
  | .rnd x nn => TableRow.rnd x nn
  | .drw x y n => TableRow.drw x y n
  | .skp x => TableRow.skp x
  | .sknp x => TableRow.sknp x
  | .ldKey x => TableRow.ldKey x
  | .ldFromDt x => TableRow.ldFromDt x
  | .ldDt x => TableRow.ldDt x
  | .ldSt x => TableRow.ldSt x
  | .addI x => TableRow.addI x
  | .ldFont x => TableRow.ldFont x
  | .ldBcd x => TableRow.ldBcd x
  | .storeRegs x => TableRow.storeRegs x
  | .loadRegs x => TableRow.loadRegs x

/-- One instruction of each row, in the table's order, its operands 0. -/
def rowInstrs : List Instr :=
  [.cls, .ret, .jp 0, .call 0, .seImm 0 0, .sneImm 0 0, .seReg 0 0, .sneReg 0 0, .ldImm 0 0,
    .addImm 0 0, .ldReg 0 0, .orReg 0 0, .andReg 0 0, .xorReg 0 0, .addReg 0 0, .sub 0 0, .shr 0 0,
    .subn 0 0, .shl 0 0, .ldI 0, .jpV0 0, .rnd 0 0, .drw 0 0 0, .skp 0, .sknp 0, .ldKey 0,
    .ldFromDt 0, .ldDt 0, .ldSt 0, .addI 0, .ldFont 0, .ldBcd 0, .storeRegs 0, .loadRegs 0]

theorem opcodeRows_eq_map : opcodeRows = rowInstrs.map tableRow := rfl

theorem exists_tableRow_eq {r : Word × Word} (hr : r ∈ opcodeRows) : ∃ i, tableRow i = r := by
  rw [opcodeRows_eq_map] at hr
  obtain ⟨i, -, hi⟩ := List.mem_map.mp hr
  exact ⟨i, hi⟩

section

variable {w m : Word}

theorem opField_of_and_F000 (h : w &&& 0xF000#16 = m) : opField w = opField m := by
  rw [← h, and_F000, opField_wordNNN]

theorem fields_of_and_F00F (h : w &&& 0xF00F#16 = m) :
    opField w = opField m ∧ nField w = nField m := by
  rw [← h, and_F00F, opField_wordXYN, nField_wordXYN]
  exact ⟨rfl, rfl⟩

theorem fields_of_and_F0FF (h : w &&& 0xF0FF#16 = m) :
    opField w = opField m ∧ nnField w = nnField m := by
  rw [← h, and_F0FF, opField_wordXNN, nnField_wordXNN]
  exact ⟨rfl, rfl⟩

end

/-- A word that matches the row of some instruction decodes to an instruction of that row: the branches
of the decoder look only at fields that the row's mask fixes. -/
theorem decode_map_tableRow_of_matches {w : Word} (i : Instr)
    (h : w &&& (tableRow i).2 = (tableRow i).1) :
    (decode w).map tableRow = .ok (tableRow i) := by
  cases i with
  | cls | ret =>
    obtain rfl := BitVec.and_allOnes.symm.trans h
    rfl
  | jp | call | seImm | sneImm | ldImm | addImm | ldI | jpV0 | rnd | drw =>
    simp only [tableRow] at h
    have hop := opField_of_and_F000 h
    rw [decode, hop]
    rfl
  | seReg | sneReg =>
    simp only [tableRow] at h
    obtain ⟨hop, hn⟩ := fields_of_and_F00F h
    rw [decode, hop]
    exact congrArg (Except.map tableRow) (if_pos hn)
  | ldReg | orReg | andReg | xorReg | addReg | sub | shr | subn | shl =>
    simp only [tableRow] at h
    obtain ⟨hop, hn⟩ := fields_of_and_F00F h
    rw [decode, hop, decodeMajor8, hn]
    rfl
  | skp | sknp =>
    simp only [tableRow] at h
    obtain ⟨hop, hnn⟩ := fields_of_and_F0FF h
    rw [decode, hop, decodeMajorE, hnn]
    rfl
  | ldKey | ldFromDt | ldDt | ldSt | addI | ldFont | ldBcd | storeRegs | loadRegs =>
    simp only [tableRow] at h
    obtain ⟨hop, hnn⟩ := fields_of_and_F0FF h
    rw [decode, hop, decodeMajorF, hnn]
    rfl

/-- A row is matched by exactly the words that decode to one of its instructions. -/
theorem matches_row_iff {w : Word} {r : Word × Word} (hr : r ∈ opcodeRows) :
    w &&& r.2 = r.1 ↔ ∃ i, decode w = .ok i ∧ tableRow i = r := by
  constructor
  · intro hw
    obtain ⟨i, rfl⟩ := exists_tableRow_eq hr
    have h := decode_map_tableRow_of_matches i hw
    cases hd : decode w with
    | ok j =>
      rw [hd] at h
      exact ⟨j, rfl, Except.ok.inj h⟩
    | error e =>
      rw [hd] at h
      cases h
  · rintro ⟨i, hd, rfl⟩
    obtain ⟨-, hmatch⟩ := encode_matches_tableRow i
    rwa [encode_of_decode hd] at hmatch

theorem exists_row_of_decode {w : Word} {i : Instr} (h : decode w = .ok i) :
    ∃ r ∈ opcodeRows, w &&& r.2 = r.1 := by
  obtain ⟨hmem, -⟩ := encode_matches_tableRow i
  exact ⟨tableRow i, hmem, (matches_row_iff hmem).mpr ⟨i, h, rfl⟩⟩

/-- Settles O4: a row is matched by exactly the words that decode to one of its instructions
(`matches_row_iff`), and the decoder answers one instruction, so there is one row. -/
theorem wordsDecodeExactlyWhenARowMatches : Obligations.WordsDecodeExactlyWhenARowMatches := by
  refine ⟨fun w => ⟨fun ⟨i, hi⟩ => exists_row_of_decode hi, fun ⟨r, hr, hw⟩ => ?_⟩,
    fun w hw => ?_, fun w r q hr hq hwr hwq => ?_⟩
  · obtain ⟨i, hi, -⟩ := (matches_row_iff hr).mp hw
    exact ⟨i, hi⟩
  · cases hd : decode w with
    | ok i =>
      obtain ⟨r, hr, hmatch⟩ := exists_row_of_decode hd
      exact absurd hmatch (hw r hr)
    | error e => rw [decode_error_unknown hd]
  · obtain ⟨i, hi, rfl⟩ := (matches_row_iff hr).mp hwr
    obtain ⟨j, hj, rfl⟩ := (matches_row_iff hq).mp hwq
    obtain rfl : i = j := Except.ok.inj (hi.symm.trans hj)
    rfl

/-! ## Fixed words and lengths -/

/-- Settles O1: twelve closed words, evaluated. -/
theorem wordsDecodeAsThePatternsSay : Obligations.WordsDecodeAsThePatternsSay := by
  unfold Obligations.WordsDecodeAsThePatternsSay
  decide

/-- Settles O57: every clause reads off `decodeBytes_eq_ok_iff`. -/
theorem everyInstructionIsTwoBytes : Obligations.EveryInstructionIsTwoBytes := by
  refine ⟨fun bytes rest i h => ?_, fun first second rest rest' i h => ?_, ?_, fun _ => rfl⟩
  · obtain ⟨hi, lo, hbytes, -⟩ := decodeBytes_eq_ok_iff.mp h
    exact ⟨hi, lo, hbytes⟩
  · obtain ⟨hi, lo, hbytes, hd⟩ := decodeBytes_eq_ok_iff.mp h
    cases hbytes
    exact decodeBytes_eq_ok_iff.mpr ⟨first, second, rfl, hd⟩
  · rintro bytes ⟨i, rest⟩ hlen h
    obtain ⟨hi, lo, rfl, -⟩ := decodeBytes_eq_ok_iff.mp h
    simp at hlen

end Sys2Proof

namespace Sys2Proof.Machine

/-! ## Every instruction answers a next state -/

theorem State.exists_commit_eq_next (s : State) (r : Except HaltReason State) :
    ∃ t, s.commit r = .next t := by
  cases r with
  | ok t => exact ⟨t, s.commit_ok t⟩
  | error e => exact ⟨s.halt e, s.commit_error e⟩

/-- Settles O12: the instructions that can fail commit, and `commit` turns a failure into the halted
state (R101); each other one answers its state outright. -/
theorem everyInstructionAnswersANextState : Obligations.EveryInstructionAnswersANextState := by
  intro i s
  cases i with
  | ret | call | drw | skp | sknp | ldBcd | storeRegs | loadRegs => exact s.exists_commit_eq_next _
  | _ => exact ⟨_, rfl⟩

end Sys2Proof.Machine

/-! # Proofs of the family `40_display.md` -/

namespace Sys2Proof.Machine

/-! ## Drawing toggles a set of pixels

`Toggles P a b` says once what each layer of `blit` (bit, row, sprite) does to the display and the
collision flag; the layers compose because no pixel is covered twice. -/

/-- From `a` to `b` exactly the pixels of `P` are flipped, and the flag is set if one of them was 1 (R64). -/
structure Display.Toggles (P : Fin 64 → Fin 32 → Prop) (a b : Display × Bool) : Prop where
  flips : ∀ px py, P px py → b.1.pixel px py = !a.1.pixel px py
  keeps : ∀ px py, ¬ P px py → b.1.pixel px py = a.1.pixel px py
  collides : b.2 = true ↔ a.2 = true ∨ ∃ px py, a.1.pixel px py = true ∧ P px py

namespace Display.Toggles

variable {P Q R : Fin 64 → Fin 32 → Prop} {a b c : Display × Bool}

theorem of_empty (h : ∀ px py, ¬ P px py) : Toggles P a a :=
  ⟨fun px py hp => absurd hp (h px py), fun _ _ _ => rfl, by simp [h]⟩

/-- Two disjoint sets toggled in turn are their union toggled. -/
theorem trans (hab : Toggles P a b) (hbc : Toggles Q b c) (hdisj : ∀ px py, P px py → ¬ Q px py)
    (hR : ∀ px py, R px py ↔ P px py ∨ Q px py) : Toggles R a c where
  flips px py h := by
    rcases (hR px py).mp h with hp | hq
    · rw [hbc.keeps px py (hdisj px py hp), hab.flips px py hp]
    · rw [hbc.flips px py hq, hab.keeps px py fun hp => hdisj px py hp hq]
  keeps px py h := by
    obtain ⟨hp, hq⟩ := not_or.mp (mt (hR px py).mpr h)
    rw [hbc.keeps px py hq, hab.keeps px py hp]
  collides := by
    have hQ (px py) : b.1.pixel px py = true ∧ Q px py ↔ a.1.pixel px py = true ∧ Q px py :=
      and_congr_left fun hq => by rw [hab.keeps px py fun hp => hdisj px py hp hq]
    simp only [hbc.collides, hab.collides, hQ, hR, and_or_left, exists_or, or_assoc]

/-- A display on which a set was toggled, with the same set toggled again, is as it was. -/
theorem twice_pixel {b' : Display × Bool} (hab : Toggles P a b) (hbc : Toggles P b' c)
    (hb : b'.1 = b.1) (px : Fin 64) (py : Fin 32) : c.1.pixel px py = a.1.pixel px py := by
  by_cases h : P px py
  · rw [hbc.flips px py h, hb, hab.flips px py h, Bool.not_not]
  · rw [hbc.keeps px py h, hb, hab.keeps px py h]

end Display.Toggles

/-! ## The pixels a bit, a row and a sprite cover -/

/-- A bit of a sprite row, set, covers its one pixel. -/
theorem Display.blitBit_toggles (x0 : Nat) (y : Fin 32) (row : Byte) (acc : Display × Bool) (c : Nat) :
    Display.Toggles (fun px py => py = y ∧ px.val = (x0 + c) % 64 ∧ row.getLsbD (7 - c) = true)
      acc (Display.blitBit x0 y row acc c) := by
  unfold Display.blitBit
  split
  · next hbit =>
    have hpx (px : Fin 64) : px.val = (x0 + c) % 64 ↔ px = Fin.ofNat 64 (x0 + c) :=
      (Fin.ext_iff (b := Fin.ofNat 64 (x0 + c))).symm
    constructor
    · rintro px py ⟨rfl, hx, -⟩
      simp [Display.flip_pixel, (hpx px).mp hx]
    · intro px py h
      have hne : ¬ (px = Fin.ofNat 64 (x0 + c) ∧ py = y) := fun ⟨hx, hy⟩ =>
        h ⟨hy, (hpx px).mpr hx, hbit⟩
      rw [Display.flip_pixel, decide_eq_false hne, Bool.xor_false]
    · simp [hpx, hbit]
  · next hbit => exact .of_empty fun _ _ ⟨_, _, hset⟩ => hbit hset

/-- The pixels the first `m` bits of a sprite row cover on display row `y`, bit 7 leftmost (R39). -/
def rowCovers (x0 y m : Nat) (row : Byte) (px : Fin 64) (py : Fin 32) : Prop :=
  py.val = y ∧ ∃ c, c < m ∧ px.val = (x0 + c) % 64 ∧ row.getLsbD (7 - c) = true

/-- One bit more: its column is none of those before, since a row is narrower than the display. -/
theorem Display.blitBits_toggles (x0 : Nat) (y : Fin 32) (row : Byte) (acc : Display × Bool) {m : Nat}
    (hm : m ≤ 8) : Display.Toggles (rowCovers x0 y m row) acc
      ((List.range m).foldl (Display.blitBit x0 y row) acc) := by
  induction m with
  | zero => exact .of_empty fun _ _ ⟨_, _, hc, _⟩ => Nat.not_lt_zero _ hc
  | succ m ih =>
    rw [List.range_succ, List.foldl_append]
    refine (ih (by omega)).trans (Display.blitBit_toggles x0 y row _ m) ?_ fun px py => ?_
    · rintro px py ⟨-, c, hc, hx, -⟩ ⟨-, hx', -⟩
      omega
    · simp only [rowCovers, Fin.ext_iff, Nat.lt_succ_iff_lt_or_eq, or_and_right, exists_or,
        exists_eq_left, and_or_left]

/-- A sprite's first row is clipped or covers its pixels, whatever the rows below do (R64). -/
theorem Display.blitRow_toggles (x0 y : Nat) (row : Byte) (acc : Display × Bool) :
    Display.Toggles (rowCovers x0 y 8 row) acc
      (if h : y < 32 then Display.blitRow x0 ⟨y, h⟩ row acc else acc) := by
  split
  · next h => exact Display.blitBits_toggles x0 ⟨y, h⟩ row acc le_rfl
  · next h => exact .of_empty fun _ py ⟨hy, _⟩ => h (hy ▸ py.isLt)

/-- A sprite covers what its first row covers and what the sprite of the other rows covers. -/
theorem spriteCovers_succ (s : State) (base x0 y0 n : Nat) (px : Fin 64) (py : Fin 32) :
    spriteCovers s base x0 y0 (n + 1) px py ↔
      rowCovers x0 y0 8 (s.readByte base) px py ∨ spriteCovers s (base + 1) x0 (y0 + 1) n px py := by
  unfold spriteCovers rowCovers
  rcases lt_trichotomy py.val y0 with hlt | heq | hgt
  · have h0 : ¬ y0 ≤ py.val := by omega
    have h1 : ¬ y0 + 1 ≤ py.val := by omega
    simp [h0, h1, hlt.ne]
  · simp [heq]
  · have haddr : base + 1 + (py.val - (y0 + 1)) = base + (py.val - y0) := by omega
    have hlo : y0 ≤ py.val ↔ y0 + 1 ≤ py.val := by omega
    have hhi : py.val < y0 + (n + 1) ↔ py.val < y0 + 1 + n := by omega
    simp [haddr, hlo, hhi, hgt.ne']

/-- The `n` bytes of memory from `base`, the rows of a sprite. -/
def State.spriteRows (s : State) (base n : Nat) : List Byte :=
  (List.range n).map fun k => s.readByte (base + k)

theorem State.spriteRows_succ (s : State) (base n : Nat) :
    s.spriteRows base (n + 1) = s.readByte base :: s.spriteRows (base + 1) n := by
  simp [State.spriteRows, List.range_succ_eq_map, Nat.add_assoc, Nat.add_comm 1]

/-- `BlitSprite` toggles the pixels the sprite covers (R64). -/
theorem Display.blit_toggles (s : State) (base x0 y0 n : Nat) (acc : Display × Bool) :
    Display.Toggles (spriteCovers s base x0 y0 n) acc
      (Display.blit x0 y0 (s.spriteRows base n) acc) := by
  induction n generalizing base y0 acc with
  | zero => exact .of_empty fun _ py ⟨hlo, hhi, _⟩ => by omega
  | succ n ih =>
    rw [State.spriteRows_succ]
    refine (Display.blitRow_toggles x0 y0 _ acc).trans (ih (base + 1) (y0 + 1) _) ?_
      (spriteCovers_succ s base x0 y0 n)
    rintro px py ⟨hy, -⟩ ⟨hlo, -⟩
    omega

/-- A display is its pixels. -/
theorem Display.ext_pixel {d e : Display} (h : ∀ px py, d.pixel px py = e.pixel px py) : d = e :=
  Vector.ext fun y hy => BitVec.eq_of_getLsbD_eq fun x hx => h ⟨x, hx⟩ ⟨y, hy⟩

/-! ## The display instructions -/

/-- Where there is a lowest bad address, a run of reads fails with it (R39, R103). -/
theorem LowestBad.readRun_eq {s : State} {a n bad : Nat} (h : LowestBad a n bad) :
    s.readRun a n = .error (.outOfBounds bad) := by
  obtain ⟨k, hk, rfl, hbad, hlow⟩ := h
  have hprev := hlow (k - 1)
  have hmax : max a 4096 = a + k := by omega
  have hfar : ¬ (n = 0 ∨ a + n ≤ 4096) := by omega
  rw [State.readRun_eq, if_neg hfar, hmax]

/-- The pixels `DRW Vx, Vy, n` covers. -/
abbrev State.drwCovers (s : State) (x y : Reg) (n : BitVec 4) : Fin 64 → Fin 32 → Prop :=
  spriteCovers s s.i.toNat ((s.getV x).toNat % 64) ((s.getV y).toNat % 32) n.toNat

/-- Display and collision after `DRW Vx, Vy, n` with all its bytes in memory. -/
def State.drwDrawn (s : State) (x y : Reg) (n : BitVec 4) : Display × Bool :=
  s.drawn x y (s.spriteRows s.i.toNat n.toNat)

theorem State.drwDrawn_toggles (s : State) (x y : Reg) (n : BitVec 4) :
    Display.Toggles (s.drwCovers x y n) (s.disp, false) (s.drwDrawn x y n) :=
  Display.blit_toggles s _ _ _ _ _

/-- The collision is that a covered pixel was 1. -/
theorem State.drwDrawn_collides (s : State) (x y : Reg) (n : BitVec 4) :
    (s.drwDrawn x y n).2 = true ↔ ∃ px py, s.disp.pixel px py = true ∧ s.drwCovers x y n px py := by
  simpa using (s.drwDrawn_toggles x y n).collides

/-- The state after `DRW Vx, Vy, n` with all its bytes in memory. -/
def State.afterDrw (s : State) (x y : Reg) (n : BitVec 4) : State :=
  ((({ s with disp := (s.drwDrawn x y n).1 } : State).setFlag (s.drwDrawn x y n).2).signal
    .repaint).advance

theorem exec_drw_of_fits {s : State} {n : BitVec 4} (x y : Reg)
    (h : n = 0 ∨ s.i.toNat + n.toNat ≤ 4096) : exec (.drw x y n) s = .next (s.afterDrw x y n) := by
  have hn : n.toNat = 0 ∨ s.i.toNat + n.toNat ≤ memSize := h.imp_left fun h0 => by simp [h0]
  rw [exec_drw, State.dataAddr, State.readRun_eq, if_pos hn]
  rfl

section

variable (s : State) (x y : Reg) (n : BitVec 4)

theorem State.afterDrw_getV (r : Reg) : (s.afterDrw x y n).getV r =
    if r = vf then flagByte (s.drwDrawn x y n).2 else s.getV r := by
  simp [State.afterDrw, State.setFlag_getV]

theorem State.afterDrw_keepsMemory : KeepsMemory s (s.afterDrw x y n) := fun _ => rfl

/-- With the coordinates kept elsewhere than in `VF`, `DRW` covers the same pixels again. -/
theorem State.afterDrw_drwCovers (hx : x ≠ vf) (hy : y ≠ vf) :
    (s.afterDrw x y n).drwCovers x y n = s.drwCovers x y n := by
  unfold State.drwCovers
  rw [State.afterDrw_getV, State.afterDrw_getV, if_neg hx, if_neg hy]
  rfl

end

/-- Settles O31: `BlitSprite` toggles exactly the covered pixels (`Display.blit_toggles`), the collision
is the flag `VF` gets; a byte outside memory fails the reads (`LowestBad.readRun_eq`). -/
theorem drwFlipsExactlyTheCoveredPixels : Obligations.DrwFlipsExactlyTheCoveredPixels := by
  refine ⟨fun x y n => decode_encode (.drw x y n), fun x y n s h => ?_, fun x y n s bad h => ?_⟩
  · have htoggles := s.drwDrawn_toggles x y n
    have hflag : (s.afterDrw x y n).getV vf = flagByte (s.drwDrawn x y n).2 := by
      rw [State.afterDrw_getV, if_pos rfl]
    refine ⟨_, exec_drw_of_fits x y h, htoggles.flips, htoggles.keeps, fun hc => ?_, fun hc => ?_,
      fun r hr => ?_, s.afterDrw_keepsMemory x y n, rfl, rfl, rfl⟩
    · rw [hflag, (s.drwDrawn_collides x y n).mpr hc]
      rfl
    · rw [hflag, Bool.eq_false_iff.mpr (mt (s.drwDrawn_collides x y n).mp hc)]
      rfl
    · rw [State.afterDrw_getV, if_neg (by simpa using hr)]
  · rw [exec_drw, State.dataAddr, h.readRun_eq]
    rfl

/-- Settles O32: the second drawing toggles the same pixels as the first. -/
theorem drwTwiceRestoresTheDisplay : Obligations.DrwTwiceRestoresTheDisplay := by
  intro x y n s t u hx hy hfits hst htu
  obtain rfl : s.afterDrw x y n = t :=
    Host.Outcome.next.inj ((exec_drw_of_fits x y hfits).symm.trans hst)
  obtain rfl : (s.afterDrw x y n).afterDrw x y n = u :=
    Host.Outcome.next.inj ((exec_drw_of_fits (s := s.afterDrw x y n) x y hfits).symm.trans htu)
  have hfirst := s.drwDrawn_toggles x y n
  have hsecond := (s.afterDrw x y n).drwDrawn_toggles x y n
  rw [s.afterDrw_drwCovers x y n hx hy] at hsecond
  exact Display.ext_pixel (hfirst.twice_pixel hsecond rfl)

/-- Settles O30: each clause reads off the state `CLS` answers, its pixels by `Display.clear_pixel`. -/
theorem clsClearsTheDisplay : Obligations.ClsClearsTheDisplay :=
  ⟨decode_encode .cls, fun _ => ⟨_, rfl, Display.clear_pixel, rfl, rfl, fun _ => rfl, rfl⟩⟩

end Sys2Proof.Machine

/-! # Proofs of the family `41_control_flow.md` -/

namespace Sys2Proof.Machine

/-! ## `CALL` and `RET`: one rule per outcome of `Push` and `Pop` -/

section

variable {s : State} (nnn : BitVec 12)

/-- A `CALL` with room on the stack saves the address after it (R67). -/
theorem exec_call_of_room (h : s.stack.length < 16) : exec (.call nnn) s =
    .next (({ s with stack := s.stack ++ [s.pc + 2#16] } : State).setPc (addrWord nnn)) := by
  rw [exec_call, s.push_eq _ h]
  rfl

theorem exec_call_of_full (h : s.stack.length = 16) :
    exec (.call nnn) s = .next (s.halt .stackOverflow) := by
  rw [exec_call, s.push_full _ h.ge]
  rfl

/-- A `RET` jumps to the newest entry, and the older ones stay (R65). -/
theorem exec_ret_of_snoc {older : List Word} {a : Word} (h : s.stack = older ++ [a]) :
    exec .ret s = .next (({ s with stack := older } : State).setPc a) := by
  rw [exec_ret, s.pop_snoc older a h]
  rfl

theorem exec_ret_of_empty (h : s.stack = []) : exec .ret s = .next (s.halt .stackUnderflow) := by
  rw [exec_ret, s.pop_empty h]
  rfl

end

/-- A 12-bit address is zero-extended (R50). -/
theorem addrWord_toNat (nnn : BitVec 12) : (addrWord nnn).toNat = nnn.toNat := by
  simp only [addrWord]
  bv_omega

/-- Settles O36: the `CALL` left its return address as the newest entry, above the stack it found, and
that is what `RET` pops. -/
theorem retReturnsBehindTheCall : Obligations.RetReturnsBehindTheCall := by
  intro nnn s t u hroom hcall hu
  have ht := Host.Outcome.next.inj ((exec_call_of_room nnn hroom).symm.trans hcall)
  have hstack : u.stack = s.stack ++ [s.pc + 2#16] := by rw [hu, ← ht, State.setPc_stack]
  exact ⟨_, exec_ret_of_snoc hstack, rfl, rfl, rfl⟩

/-- Settles O34: the two outcomes of the push, `exec_call_of_room` and `exec_call_of_full`. -/
theorem callPushesTheReturnAddress : Obligations.CallPushesTheReturnAddress := fun nnn =>
  ⟨decode_encode (.call nnn),
    fun _ h => ⟨_, exec_call_of_room nnn h, rfl, addrWord_toNat nnn, fun _ => rfl, rfl⟩,
    fun _ h => exec_call_of_full nnn h⟩

/-- Settles O35: the two outcomes of the pop, `exec_ret_of_snoc` and `exec_ret_of_empty`. -/
theorem retPopsIntoPc : Obligations.RetPopsIntoPc :=
  ⟨decode_encode .ret, fun _ _ _ h => ⟨_, exec_ret_of_snoc h, rfl, rfl, fun _ => rfl, rfl⟩,
    fun _ h => exec_ret_of_empty h⟩

/-! ## Skips and jumps change `PC` alone -/

section

variable (s : State)

theorem State.setPc_onlyPcChanges (a : Word) : OnlyPcChanges s (s.setPc a) :=
  ⟨fun _ => rfl, rfl⟩

/-- A skip, taken or not, sets `PC` (R54). -/
theorem State.skipIf_onlyPcChanges (taken : Bool) : OnlyPcChanges s (s.skipIf taken) := by
  cases taken with
  | true => exact s.setPc_onlyPcChanges (s.pc + 4#16)
  | false => exact s.setPc_onlyPcChanges (s.pc + 2#16)

variable {s} {i : Instr} {a b : Byte}

/-- An instruction that skips when two bytes are equal (R68, R70). -/
theorem exec_skip_of_eq (h : exec i s = .next (s.skipIf (a == b))) :
    ∃ t, exec i s = .next t ∧ t.pc = (if a = b then s.pc + 4#16 else s.pc + 2#16) ∧
      OnlyPcChanges s t :=
  ⟨_, h, by simp, s.skipIf_onlyPcChanges _⟩

/-- An instruction that skips when two bytes differ (R69, R71). -/
theorem exec_skip_of_ne (h : exec i s = .next (s.skipIf (a != b))) :
    ∃ t, exec i s = .next t ∧ t.pc = (if a = b then s.pc + 2#16 else s.pc + 4#16) ∧
      OnlyPcChanges s t :=
  ⟨_, h, by by_cases hab : a = b <;> simp [hab], s.skipIf_onlyPcChanges _⟩

end

/-- Settles O37: `SE` skips on equal bytes, `SNE` on different ones. -/
theorem immediateSkips : Obligations.ImmediateSkips := fun x nn =>
  ⟨decode_encode (.seImm x nn), decode_encode (.sneImm x nn),
    fun _ => exec_skip_of_eq rfl, fun _ => exec_skip_of_ne rfl⟩

/-- The register skips leave no other `n` a meaning (R55, R56). -/
theorem decode_registerSkip_unknown {op n : BitVec 4} (hop : op = 0x5#4 ∨ op = 0x9#4) (hn : n ≠ 0)
    (x y : Reg) : decode (wordXYN op x y n) = .error (.unknownOpcode (wordXYN op x y n)) := by
  rw [decode, opField_wordXYN]
  rcases hop with rfl | rfl <;> exact if_neg (by rwa [nField_wordXYN])

/-- Settles O38: the skips as for an immediate; the decoder tests that `n` is 0. -/
theorem registerSkips : Obligations.RegisterSkips := fun x y =>
  ⟨decode_encode (.seReg x y), decode_encode (.sneReg x y),
    fun _ hn => ⟨decode_registerSkip_unknown (.inl rfl) hn x y,
      decode_registerSkip_unknown (.inr rfl) hn x y⟩,
    fun _ => exec_skip_of_eq rfl, fun _ => exec_skip_of_ne rfl⟩

/-- The target of `JP V0, nnn` fits 16 bits, so the sum is exact (R72). -/
theorem addrWord_add_toNat (nnn : BitVec 12) (b : Byte) :
    (addrWord nnn + b.setWidth 16).toNat = nnn.toNat + b.toNat := by
  have ha := addrWord_toNat nnn
  bv_omega

/-- Settles O39: the targets as numbers are `addrWord_toNat` and `addrWord_add_toNat`; the largest sum is
0xFFF + 0xFF. -/
theorem jumpsSetPcToTheirTarget : Obligations.JumpsSetPcToTheirTarget := by
  refine ⟨fun nnn => ⟨decode_encode (.jp nnn), fun s => ?_⟩,
    fun nnn => ⟨decode_encode (.jpV0 nnn), fun s => ?_⟩⟩
  · exact ⟨_, rfl, addrWord_toNat nnn, s.setPc_onlyPcChanges _⟩
  · have hsum := addrWord_add_toNat nnn (s.getV 0)
    exact ⟨_, rfl, hsum, hsum.trans_le (by omega), s.setPc_onlyPcChanges _⟩

end Sys2Proof.Machine

/-! # Proofs of the family `42_register_alu.md` -/

namespace Sys2Proof.Machine

/-! ## An instruction that writes one register -/

section

variable (s : State) (x : Reg) (b : Byte)

theorem State.setV_getV_same : (s.setV x b).getV x = b := by
  rw [State.setV_getV, if_pos rfl]

theorem State.setV_advance_keepsRegs : KeepsRegsExcept [x] s (s.setV x b).advance := fun r hr => by
  rw [State.advance_getV, State.setV_getV, if_neg (mt List.mem_singleton.mpr hr)]

theorem State.setV_advance_registerFrame : RegisterFrame [x] s (s.setV x b).advance :=
  ⟨s.setV_advance_keepsRegs x b, fun _ => rfl, rfl⟩

end

/-- Settles O40: each writes `Vx` alone, which then reads as the value written; the sum of `ADD` is that of
bytes. -/
theorem loadsAndImmediateAdd : Obligations.LoadsAndImmediateAdd := by
  refine ⟨fun x nn => ⟨decode_encode (.ldImm x nn), fun s => ?_⟩,
    fun x nn => ⟨decode_encode (.addImm x nn), fun s => ?_⟩,
    fun x y => ⟨decode_encode (.ldReg x y), fun s => ?_⟩⟩
  · exact ⟨_, rfl, s.setV_getV_same x nn, rfl, s.setV_advance_registerFrame x nn⟩
  · have hsum : ((s.setV x (s.getV x + nn)).getV x).toNat =
        ((s.getV x).toNat + nn.toNat) % 256 := by
      rw [State.setV_getV_same, BitVec.toNat_add]
    exact ⟨_, rfl, hsum, rfl, s.setV_advance_registerFrame x _⟩
  · exact ⟨_, rfl, s.setV_getV_same x _, rfl, s.setV_advance_registerFrame x _⟩

/-- An instruction that writes to `Vx` a byte known by its bits (R78, R79, R80). -/
theorem exec_bitwise {i : Instr} {s : State} {x : Reg} {b : Byte} {bit : Nat → Bool}
    (h : exec i s = .next (s.setV x b).advance) (hb : ∀ k, b.getLsbD k = bit k) :
    ∃ t, exec i s = .next t ∧ (∀ k, (t.getV x).getLsbD k = bit k) ∧ t.pc = s.pc + 2#16 ∧
      RegisterFrame [x] s t :=
  ⟨_, h, fun k => by rw [State.advance_getV, State.setV_getV_same, hb], rfl,
    s.setV_advance_registerFrame x b⟩

/-- Settles O41: the word operations work bit by bit, and `Vx` alone is written. -/
theorem logicOperationsKeepTheFlag : Obligations.LogicOperationsKeepTheFlag := fun x y =>
  ⟨decode_encode (.orReg x y), decode_encode (.andReg x y), decode_encode (.xorReg x y), fun _ =>
    ⟨exec_bitwise rfl fun _ => BitVec.getLsbD_or, exec_bitwise rfl fun _ => BitVec.getLsbD_and,
      exec_bitwise rfl fun _ => BitVec.getLsbD_xor⟩⟩

/-- Settles O45: the byte drawn is masked as it is written, and a bit is not both in `nn` and outside. -/
theorem rndMasksAFreeByte : Obligations.RndMasksAFreeByte := by
  refine fun x nn => ⟨decode_encode (.rnd x nn), fun s => ?_⟩
  have hv := s.draw.2.setV_getV_same x (s.draw.1 &&& nn)
  refine ⟨_, rfl, hv, ?_, rfl, rfl, s.draw.2.setV_advance_keepsRegs x _, fun _ => rfl, rfl⟩
  rw [State.advance_getV, hv, BitVec.and_assoc, BitVec.and_not_self]
  exact BitVec.and_zero

/-! ## An instruction that writes a result and then the flag -/

section

variable (s : State) (x : Reg) (b : Byte) (f : Bool)

theorem State.setResultAndFlag_getV_vf : (s.setResultAndFlag x b f).getV vf = flagByte f := by
  rw [State.setResultAndFlag_getV, if_pos rfl]

theorem State.setResultAndFlag_getV_result {x : Reg} (hx : x ≠ vf) :
    (s.setResultAndFlag x b f).getV x = b := by
  rw [State.setResultAndFlag_getV, if_neg hx, if_pos rfl]

theorem State.setResultAndFlag_advance_registerFrame :
    RegisterFrame [x, vf] s (s.setResultAndFlag x b f).advance := by
  refine ⟨fun r hr => ?_, fun _ => rfl, rfl⟩
  obtain ⟨hrx, hrvf⟩ : r ≠ x ∧ r ≠ vf := by simpa using hr
  rw [State.advance_getV, State.setResultAndFlag_getV, if_neg hrvf, if_neg hrx]

end

theorem flagByte_carryOf (a b : Byte) :
    flagByte (carryOf a b) = if 255 < a.toNat + b.toNat then 1 else 0 := by
  simp [flagByte, carryOf]

theorem flagByte_noBorrowOf (a b : Byte) :
    flagByte (noBorrowOf a b) = if b.toNat ≤ a.toNat then 1 else 0 := by
  simp [flagByte, noBorrowOf]

/-- A bit kept as a flag, as a number. -/
theorem flagByte_getLsbD_toNat (a : Byte) (k : Nat) :
    (flagByte (a.getLsbD k)).toNat = a.toNat / 2 ^ k % 2 := by
  rw [← Nat.toNat_testBit, ← BitVec.getLsbD]
  cases a.getLsbD k <;> rfl

/-- Settles O42: the sum and the carry are worked out from the operands before either is written. -/
theorem addSetsSumThenCarry : Obligations.AddSetsSumThenCarry := by
  refine fun x y => ⟨decode_encode (.addReg x y), fun s => ?_⟩
  refine ⟨_, rfl, fun hx => ?_, ?_, rfl, s.setResultAndFlag_advance_registerFrame x _ _⟩
  · rw [State.advance_getV, s.setResultAndFlag_getV_result _ _ hx, BitVec.toNat_add]
  · rw [State.advance_getV, State.setResultAndFlag_getV_vf, flagByte_carryOf]

/-- `SUB` and `SUBN` are one instruction but for the order of the operands (R82, R84). -/
theorem exec_subtraction {i : Instr} {s : State} {x : Reg} {a b : Byte}
    (h : exec i s = .next (s.setResultAndFlag x (a - b) (noBorrowOf a b)).advance) :
    ∃ t, exec i s = .next t ∧ (x ≠ vf → (t.getV x).toNat = (256 + a.toNat - b.toNat) % 256) ∧
      t.getV vf = (if b.toNat ≤ a.toNat then 1 else 0) ∧ t.pc = s.pc + 2#16 ∧
      RegisterFrame [x, vf] s t := by
  refine ⟨_, h, fun hx => ?_, ?_, rfl, s.setResultAndFlag_advance_registerFrame x _ _⟩
  · rw [State.advance_getV, s.setResultAndFlag_getV_result _ _ hx]
    bv_omega
  · rw [State.advance_getV, State.setResultAndFlag_getV_vf, flagByte_noBorrowOf]

/-- Settles O43: `exec_subtraction` with the operands in either order. -/
theorem subtractionsSetDifferenceThenNoBorrow : Obligations.SubtractionsSetDifferenceThenNoBorrow :=
  fun x y => ⟨decode_encode (.sub x y), decode_encode (.subn x y),
    fun _ => exec_subtraction rfl, fun _ => exec_subtraction rfl⟩

/-- An instruction that writes to `Vx` a byte and to `VF` a bit of the old `Vx` (R83, R85). -/
theorem exec_shift {i : Instr} {s : State} {x : Reg} {b : Byte} {k : Nat}
    (h : exec i s = .next (s.setResultAndFlag x b ((s.getV x).getLsbD k)).advance) :
    ∃ t, exec i s = .next t ∧ (x ≠ vf → (t.getV x).toNat = b.toNat) ∧
      (t.getV vf).toNat = (s.getV x).toNat / 2 ^ k % 2 ∧ t.pc = s.pc + 2#16 ∧
      RegisterFrame [x, vf] s t := by
  refine ⟨_, h, fun hx => ?_, ?_, rfl, s.setResultAndFlag_advance_registerFrame x _ _⟩
  · rw [State.advance_getV, s.setResultAndFlag_getV_result _ _ hx]
  · rw [State.advance_getV, State.setResultAndFlag_getV_vf, flagByte_getLsbD_toNat]

/-- Settles O44: a shift by one halves or doubles `Vx`; bit 0 is its remainder mod 2, and bit 7 its quotient by
128. -/
theorem shiftsByOneSetTheBitShiftedOut : Obligations.ShiftsByOneSetTheBitShiftedOut := by
  refine fun x y => ⟨decode_encode (.shr x y), decode_encode (.shl x y), fun s => ?_, fun s => ?_⟩
  · have hhalf : (s.getV x >>> 1).toNat = (s.getV x).toNat / 2 := BitVec.toNat_ushiftRight ..
    have hbit : (s.getV x).toNat / 2 ^ 0 % 2 = (s.getV x).toNat % 2 := by rw [pow_zero, Nat.div_one]
    rw [← hhalf, ← hbit]
    exact exec_shift rfl
  · have hdouble : (s.getV x <<< 1).toNat = (s.getV x).toNat * 2 % 256 := by
      rw [BitVec.toNat_shiftLeft, Nat.shiftLeft_eq]
    have hbit : (s.getV x).toNat / 2 ^ 7 % 2 = (s.getV x).toNat / 128 := by omega
    rw [← hdouble, ← hbit]
    exact exec_shift rfl

end Sys2Proof.Machine

/-! # Proofs of the family `43_index_memory.md` -/

namespace Sys2Proof.Machine

/-! ## Runs of bytes in memory and past its end -/

/-- The lowest bad address is the first of the run that memory does not hold. -/
theorem LowestBad.eq_max {a n bad : Nat} (h : LowestBad a n bad) : bad = max a 4096 := by
  obtain ⟨k, -, rfl, hbad, hlow⟩ := h
  have hprev := hlow (k - 1)
  omega

theorem LowestBad.lt_end {a n bad : Nat} (h : LowestBad a n bad) : 4096 < a + n := by
  obtain ⟨k, hk, rfl, hbad, -⟩ := h
  omega

/-- Where there is a lowest bad address, a run of writes fails with it (R39, R103). -/
theorem LowestBad.writeRun_eq {s : State} {a bad : Nat} {bs : List Byte}
    (h : LowestBad a bs.length bad) : s.writeRun a bs = .error (.outOfBounds bad) := by
  have hend := h.lt_end
  rcases State.writeRun_cases s a bs with ⟨-, -, hfits, -⟩ | ⟨he, -⟩
  · rcases hfits with rfl | hfits
    · obtain ⟨k, hk, -⟩ := h
      exact absurd hk (Nat.not_lt_zero k)
    · exact absurd hfits (Nat.not_le.mpr hend)
  · rw [he, h.eq_max]

section

variable (s : State) (a : Nat) (bs : List Byte)

/-- A stored byte is at its place in the run ... -/
theorem State.byteAfterStore_getElem {k : Nat} (hk : k < bs.length) :
    s.byteAfterStore a bs (a + k) = bs[k] := by
  rw [State.byteAfterStore, if_pos ⟨Nat.le_add_right a k, Nat.add_lt_add_left hk a⟩,
    Nat.add_sub_cancel_left, List.getD_eq_getElem _ _ hk]

/-- ... and outside the run memory is as it was (R36). -/
theorem State.byteAfterStore_outside {p : Nat} (hp : ¬ (a ≤ p ∧ p < a + bs.length)) :
    s.byteAfterStore a bs p = s.readByte p :=
  if_neg hp

end

/-! ## The store instructions -/

section

variable {s : State} {i : Instr} {bs : List Byte} (hi : Stores s i bs)

include hi

/-- A store with all its bytes in memory puts them there and advances (R90, R91). -/
theorem exec_stores_of_fits (hb : s.i.toNat + bs.length ≤ 4096) :
    ∃ t, exec i s = .next t ∧ (∀ p, t.readByte p = s.byteAfterStore s.i.toNat bs p) ∧
      t.pc = s.pc + 2#16 ∧ t = { s with mem := t.mem, pc := t.pc } := by
  rcases State.writeRun_cases s s.dataAddr bs with ⟨u, hu, -, hf, -⟩ | ⟨-, hlt⟩
  · have hexec : exec i s = .next u.advance := by
      rw [exec_stores hi, hu]
      rfl
    obtain ⟨hframe, hread⟩ := exec_stores_lands hi hb hexec
    exact ⟨_, hexec, hread, by rw [State.advance_pc, hf], hframe⟩
  · exact absurd hb (Nat.not_le.mpr hlt)

/-- A store that reaches past memory halts with the lowest bad address (R101, R103). -/
theorem exec_stores_of_lowestBad {bad : Nat} (h : LowestBad s.i.toNat bs.length bad) :
    exec i s = .next (s.halt (.outOfBounds bad)) := by
  rw [exec_stores hi, State.dataAddr, h.writeRun_eq]
  rfl

end

theorem storeRegs_stores (s : State) (x : Reg) : Stores s (.storeRegs x) (s.regsUpTo x) :=
  .inl ⟨x, rfl, rfl⟩

theorem ldBcd_stores (s : State) (x : Reg) : Stores s (.ldBcd x) (bcdDigits (s.getV x)) :=
  .inr ⟨x, rfl, rfl⟩

/-- `LD [I], Vx` leaves `Vk` at `I + k` (R91). -/
theorem State.byteAfterStore_regsUpTo (s : State) (a : Nat) {k x : Reg} (hk : k ≤ x) :
    s.byteAfterStore a (s.regsUpTo x) (a + k.val) = s.getV k := by
  have hlt : k.val < (s.regsUpTo x).length := by
    rw [State.regsUpTo_length]
    exact Nat.lt_succ_of_le hk
  rw [State.byteAfterStore_getElem s a _ hlt, State.regsUpTo_getElem]

/-- Settles O50: the two outcomes of a store, `exec_stores_of_fits` and `exec_stores_of_lowestBad`, for the
registers up to `Vx`. -/
theorem storeRegistersFromIndex : Obligations.StoreRegistersFromIndex := by
  refine fun x => ⟨decode_encode (.storeRegs x), fun s hfits => ?_, fun s bad hbad => ?_⟩
  · rw [← s.regsUpTo_length x] at hfits ⊢
    obtain ⟨t, hexec, hread, hpc, hframe⟩ := exec_stores_of_fits (storeRegs_stores s x) hfits
    refine ⟨t, hexec, fun k hk => ?_, fun p hp => ?_, hpc, hframe⟩
    · rw [hread, s.byteAfterStore_regsUpTo _ hk]
    · rw [hread, s.byteAfterStore_outside _ _ hp]
  · rw [← s.regsUpTo_length x] at hbad
    exact exec_stores_of_lowestBad (storeRegs_stores s x) hbad

@[simp] theorem bcdDigits_length (b : Byte) : (bcdDigits b).length = 3 := rfl

/-- Each digit is below 10, so its byte holds it (R90). -/
theorem bcdDigits_toNat (b : Byte) :
    (bcdDigits b)[0].toNat = b.toNat / 100 ∧ (bcdDigits b)[1].toNat = b.toNat / 10 % 10 ∧
      (bcdDigits b)[2].toNat = b.toNat % 10 := by
  have hb := b.isLt
  refine ⟨Nat.mod_eq_of_lt ?_, Nat.mod_eq_of_lt ?_, Nat.mod_eq_of_lt ?_⟩ <;> omega

/-- Settles O49: the two outcomes of a store, for the three digits of `Vx`. -/
theorem bcdStoresHundredsTensUnits : Obligations.BcdStoresHundredsTensUnits := by
  refine fun x => ⟨decode_encode (.ldBcd x), fun s hfits => ?_, fun s bad hbad => ?_⟩
  · obtain ⟨t, hexec, hread, hpc, hframe⟩ := exec_stores_of_fits (ldBcd_stores s x) hfits
    have hdigit (k : Nat) (hk : k < 3) :
        t.readByte (s.i.toNat + k) = (bcdDigits (s.getV x))[k] := by
      rw [hread, s.byteAfterStore_getElem _ _ hk]
    obtain ⟨hhundreds, htens, hunits⟩ := bcdDigits_toNat (s.getV x)
    refine ⟨t, hexec, ?_, ?_, ?_, fun p hp => ?_, hpc, hframe⟩
    · exact (congrArg BitVec.toNat (hdigit 0 (by decide))).trans hhundreds
    · exact (congrArg BitVec.toNat (hdigit 1 (by decide))).trans htens
    · exact (congrArg BitVec.toNat (hdigit 2 (by decide))).trans hunits
    · rw [hread, s.byteAfterStore_outside _ _ hp]
  · exact exec_stores_of_lowestBad (ldBcd_stores s x) hbad

/-! ## The load of registers -/

/-- The state after `LD Vx, [I]` with all its bytes in memory (R92). -/
def State.afterLoadRegs (s : State) (x : Reg) : State :=
  (s.setVs 0 ((List.range (x.val + 1)).map fun k => s.readByte (s.i.toNat + k))).advance

section

variable (s : State) (x : Reg)

theorem exec_loadRegs_of_fits (h : s.i.toNat + (x.val + 1) ≤ 4096) :
    exec (.loadRegs x) s = .next (s.afterLoadRegs x) := by
  rw [exec_loadRegs, State.dataAddr, State.readRun_eq, if_pos (.inr h)]
  rfl

theorem State.afterLoadRegs_getV_le {k : Reg} (hk : k ≤ x) :
    (s.afterLoadRegs x).getV k = s.readByte (s.i.toNat + k.val) := by
  have hlt : k.val < x.val + 1 := Nat.lt_succ_of_le hk
  rw [State.afterLoadRegs, State.advance_getV, State.setVs_getV, if_pos (Nat.zero_le _)]
  simp [hlt]

theorem State.afterLoadRegs_getV_gt {k : Reg} (hk : x < k) :
    (s.afterLoadRegs x).getV k = s.getV k := by
  rw [State.afterLoadRegs, State.advance_getV, State.setVs_getV_above]
  simpa using Nat.succ_le_of_lt hk

/-- A load writes registers and `PC` alone. -/
theorem State.afterLoadRegs_frame :
    s.afterLoadRegs x = { s with v := (s.afterLoadRegs x).v, pc := s.pc + 2#16 } := by
  rw [State.afterLoadRegs, State.setVs_eq]
  rfl

end

/-- Settles O51: with its bytes in memory the load is `afterLoadRegs`; a byte outside fails the reads
(`LowestBad.readRun_eq`). -/
theorem loadRegistersFromIndex : Obligations.LoadRegistersFromIndex := by
  refine fun x => ⟨decode_encode (.loadRegs x), fun s hfits => ?_, fun s bad hbad => ?_⟩
  · have hframe := s.afterLoadRegs_frame x
    have hpc : (s.afterLoadRegs x).pc = s.pc + 2#16 := by rw [hframe]
    refine ⟨_, exec_loadRegs_of_fits s x hfits, fun k => s.afterLoadRegs_getV_le x,
      fun k => s.afterLoadRegs_getV_gt x, fun a => ?_, hpc, ?_⟩
    · rw [hframe]
      rfl
    · rw [hpc]
      exact hframe
  · rw [exec_loadRegs, State.dataAddr, hbad.readRun_eq]
    rfl

/-- Settles O52: the store leaves `Vk` at `I + k` and keeps `I`, and there the load finds it. -/
theorem storedRegistersLoadBack : Obligations.StoredRegistersLoadBack := by
  intro x s t u hfits hstore hi hmem
  obtain ⟨hframe, hread⟩ :=
    exec_stores_lands (storeRegs_stores s x) (by rwa [s.regsUpTo_length]) hstore
  have hui : u.i = s.i := by rw [hi, hframe]
  refine ⟨_, exec_loadRegs_of_fits u x (by rwa [hui]), fun k hk => ?_⟩
  calc (u.afterLoadRegs x).getV k
    _ = u.readByte (u.i.toNat + k.val) := u.afterLoadRegs_getV_le x hk
    _ = s.byteAfterStore s.i.toNat (s.regsUpTo x) (s.i.toNat + k.val) := by rw [hmem, hread, hui]
    _ = s.getV k := s.byteAfterStore_regsUpTo _ hk

/-! ## The index register -/

/-- Settles O46: the value as a number is `addrWord_toNat`. -/
theorem loadIndexImmediate : Obligations.LoadIndexImmediate := fun nnn =>
  ⟨decode_encode (.ldI nnn), fun _ => ⟨_, rfl, addrWord_toNat nnn, rfl, fun _ => rfl, rfl⟩⟩

theorem flagByte_indexOverflowOf (sum : Nat) :
    flagByte (indexOverflowOf sum) = if 0xFFF < sum then 1 else 0 := by
  simp [flagByte, indexOverflowOf]

/-- Settles O47: without the parameter no register is written, with it the flag is written after `I`. -/
theorem addIndexSetsVfOnlyWhenConfigured : Obligations.AddIndexSetsVfOnlyWhenConfigured := by
  refine fun x => ⟨decode_encode (.addI x), fun s => ?_⟩
  cases hp : s.params.fx1eSetsVf with
  | false =>
    exact ⟨_, exec_addI_noFlag s x hp, BitVec.toNat_ofNat _ _, rfl, fun _ _ => rfl, nofun,
      fun _ => rfl, rfl⟩
  | true =>
    refine ⟨_, exec_addI_flag s x hp, BitVec.toNat_ofNat _ _, rfl, nofun,
      fun _ => ⟨fun r hr => ?_, ?_⟩, fun _ => rfl, rfl⟩
    · rw [State.advance_getV, State.setFlag_getV, if_neg (mt List.mem_singleton.mpr hr)]
      rfl
    · rw [State.advance_getV, State.setFlag_getV, if_pos rfl, flagByte_indexOverflowOf]

/-- With the font below the program base no glyph address wraps, whatever byte is the digit (R5, R89). -/
theorem glyphAddr_toNat {p : Params} (hp : p.wf = true) {d : Nat} (hd : d < 256) :
    (glyphAddr p d).toNat = p.fontBase + 5 * d := by
  have hbase : p.fontBase + 80 ≤ 512 := of_decide_eq_true hp
  rw [glyphAddr, BitVec.toNat_ofNat]
  omega

theorem fontDigit_lowNibble {p : Params} (hp : p.fontDigitPolicy = .lowNibble) (b : Byte) :
    fontDigit p b = b.toNat % 16 := by
  simp [fontDigit, hp]

theorem fontDigit_fullByte {p : Params} (hp : p.fontDigitPolicy = .fullByte) (b : Byte) :
    fontDigit p b = b.toNat := by
  simp [fontDigit, hp]

theorem fontDigit_lt (p : Params) (b : Byte) : fontDigit p b < 256 := by
  have hb := b.isLt
  cases hp : p.fontDigitPolicy with
  | lowNibble => rw [fontDigit_lowNibble hp]; omega
  | fullByte => rwa [fontDigit_fullByte hp]

/-- Memory that nothing has written holds the font at its base (R48). -/
theorem State.readByte_font {s : State} (hs : s.mem = []) {k : Nat} (hk : k < 80) :
    s.readByte (s.params.fontBase + k) = fontData.getD k 0 := by
  have hin : s.params.fontBase ≤ s.params.fontBase + k ∧
      s.params.fontBase + k < s.params.fontBase + 80 := by omega
  rw [State.readByte, hs, State.unlisted, postLoadByte, if_pos hin, Nat.add_sub_cancel_left]
  rfl

/-- Settles O48: the address is `glyphAddr_toNat` of the digit that the policy picks; a low nibble's glyph is
in the font (`readByte_font`). -/
theorem loadFontPointsAtTheGlyph : Obligations.LoadFontPointsAtTheGlyph := by
  refine fun x => ⟨decode_encode (.ldFont x), fun s hwf => ?_⟩
  have haddr := glyphAddr_toNat hwf (fontDigit_lt s.params (s.getV x))
  refine ⟨_, rfl, fun hp => ?_, fun hp => ?_, rfl, fun _ => rfl, rfl⟩
  · have hdigit := fontDigit_lowNibble hp (s.getV x)
    rw [← hdigit]
    refine ⟨haddr, fun hmem r hr => ?_⟩
    rw [State.advance_i, State.advance_readByte, haddr, Nat.add_assoc]
    exact State.readByte_font hmem (by omega)
  · rw [← fontDigit_fullByte hp]
    exact haddr

end Sys2Proof.Machine

/-! # Proofs of the family `44_input_timers.md` -/

namespace Sys2Proof.Machine

/-! ## Key events, ticks and dumps

What the commands of R95 leave alone; then a run through a queue of them. -/

/-- Nothing but the timers, the key flags, the queue and the last command's events and result has changed:
the most that ticks, key events and dumps can do, apart from latching a key (R107 to R114). -/
def InputsOnly (s t : State) : Prop :=
  t = { s with dt := t.dt, st := t.st, keys := t.keys, pending := t.pending
               events := t.events, result := t.result }

namespace InputsOnly

variable {s t u : State}

theorem trans (hst : InputsOnly s t) (htu : InputsOnly t u) : InputsOnly s u := by
  refine Eq.trans htu ?_
  rw [hst]

theorem withPending (h : InputsOnly s t) (cs : List Command) : InputsOnly s (t.withPending cs) :=
  congrArg (State.withPending · cs) h

theorem loaded (h : InputsOnly s t) : t.loaded = s.loaded := by rw [h]

theorem mode (h : InputsOnly s t) : t.mode = s.mode := by rw [h]

theorem wake (h : InputsOnly s t) : t.wake = s.wake := by rw [h]

theorem getV (h : InputsOnly s t) (r : Reg) : t.getV r = s.getV r := by rw [h]; rfl

end InputsOnly

section

variable (s : State)

theorem State.beginCommand_inputsOnly : InputsOnly s s.beginCommand := rfl

theorem cmdTick_inputsOnly : InputsOnly s (cmdTick s) ∧ (cmdTick s).pending = s.pending := by
  unfold cmdTick
  split <;> exact ⟨rfl, rfl⟩

/-- A tick leaves the key flags alone (R107). -/
theorem cmdTick_key (k : KeyCode) : (cmdTick s).key k = s.key k := by
  unfold cmdTick
  split <;> rfl

theorem cmdKeyUp_inputsOnly (code : Nat) :
    InputsOnly s (cmdKeyUp code s) ∧ (cmdKeyUp code s).pending = s.pending := by
  unfold cmdKeyUp
  split <;> exact ⟨rfl, rfl⟩

/-- A key is held after a `KeyUp` only if it was before (R110). -/
theorem cmdKeyUp_key (code : Nat) (k : KeyCode) (h : (cmdKeyUp code s).key k = true) :
    s.key k = true := by
  unfold cmdKeyUp at h
  split at h
  · rw [State.setKey_key] at h
    split at h
    · cases h
    · exact h
  · exact h

/-- A `KeyDown` of a code 0..15 sets its flag and may latch the key (R109). -/
theorem cmdKeyDown_valid (k : KeyCode) : cmdKeyDown k.val s =
    { s.beginCommand.setKey k true with wake := latchKey s.mode s.wake k } := by
  rw [cmdKeyDown, dif_pos k.isLt]

/-- A `KeyDown` of a code above 15 is dropped (R111). -/
theorem cmdKeyDown_invalid {code : Nat} (h : 15 < code) :
    cmdKeyDown code s = { s.beginCommand with result := .invalidKeyCode } := by
  rw [cmdKeyDown, dif_neg (by omega)]

variable {s}

/-- The first `KeyDown` of a wait latches its key (R20, R109). -/
theorem cmdKeyDown_latches {x : Reg} (hm : s.mode = .waitingForKey x) (hw : s.wake = none)
    (k : KeyCode) : InputsOnly { s with wake := some k } (cmdKeyDown k.val s) ∧
      (cmdKeyDown k.val s).pending = s.pending := by
  have hlatch : latchKey s.mode s.wake k = some k := by rw [hm, hw]; rfl
  rw [cmdKeyDown_valid, hlatch]
  exact ⟨rfl, rfl⟩

/-- Where the latch takes no key, a `KeyDown` sets a flag at most. -/
theorem cmdKeyDown_inputsOnly (hlatch : ∀ k, latchKey s.mode s.wake k = s.wake) (code : Nat) :
    InputsOnly s (cmdKeyDown code s) ∧ (cmdKeyDown code s).pending = s.pending := by
  rcases Nat.lt_or_ge 15 code with hcode | hcode
  · rw [cmdKeyDown_invalid s hcode]
    exact ⟨rfl, rfl⟩
  · obtain ⟨k, rfl⟩ : ∃ k : KeyCode, k.val = code := ⟨⟨code, by omega⟩, rfl⟩
    rw [cmdKeyDown_valid, hlatch]
    exact ⟨rfl, rfl⟩

/-- Ticks, key events and dumps, where the latch takes no key. -/
theorem sessionCommand_betweenCycles {c : Command} (hc : c.betweenCycles = true)
    (hlatch : ∀ k, latchKey s.mode s.wake k = s.wake) :
    ∃ t, sessionCommand c s = .next t ∧ InputsOnly s t ∧ t.pending = s.pending := by
  cases c with
  | tick => exact ⟨_, rfl, cmdTick_inputsOnly s⟩
  | keyDown code => exact ⟨_, rfl, cmdKeyDown_inputsOnly hlatch code⟩
  | keyUp code => exact ⟨_, rfl, cmdKeyUp_inputsOnly s code⟩
  | dumpDisplay | dumpMemory | dumpCpu => exact ⟨_, rfl, rfl, rfl⟩
  | load | emulateCycle | singleStep | reset => cases hc

end

/-- In a session a step is the oldest queued command (R25). -/
theorem step_queued (s : State) {c : Command} {rest : List Command} (hl : s.loaded = true)
    (hp : s.pending = c :: rest) : step s = sessionCommand c (s.withPending rest) :=
  (step_cons s c rest hp).trans (runCommand_session c (s.withPending rest) hl)

/-- A property of states in a session that every command at the head of the queue keeps, and that does not
speak of the queue, holds once they have been taken (R25). -/
theorem run_queue {P : State → Prop} {cs rest : List Command}
    (hqueue : ∀ s q, P s → P (s.withPending q))
    (hloaded : ∀ s, P s → s.loaded = true)
    (hcmd : ∀ c ∈ cs, ∀ s, P s → ∃ t, sessionCommand c s = .next t ∧ P t ∧ t.pending = s.pending)
    (n : Nat) {s : State} (hs : P s) (hp : s.pending = cs ++ rest) :
    ∃ t, core.run (cs.length + n) s = core.run n t ∧ P t ∧ t.pending = rest := by
  induction cs generalizing s with
  | nil => exact ⟨s, by rw [List.length_nil, Nat.zero_add], hs, hp⟩
  | cons c cs ih =>
    obtain ⟨hc, hcs⟩ := List.forall_mem_cons.mp hcmd
    obtain ⟨t, ht, hPt, hpt⟩ := hc _ (hqueue s (cs ++ rest) hs)
    obtain ⟨u, hu, hPu, hpu⟩ := ih hcs hPt hpt
    refine ⟨u, ?_, hPu, hpu⟩
    rw [List.length_cons, Nat.add_right_comm, run_succ _ s t ((step_queued s (hloaded s hs) hp).trans ht), hu]

/-- Queued ticks, key events and dumps change inputs only, where the latch takes no key. -/
theorem run_betweenCycles {s : State} {cs rest : List Command} (hl : s.loaded = true)
    (hlatch : ∀ k, latchKey s.mode s.wake k = s.wake) (hcs : ∀ c ∈ cs, c.betweenCycles = true)
    (n : Nat) (hp : s.pending = cs ++ rest) :
    ∃ t, core.run (cs.length + n) s = core.run n t ∧ InputsOnly s t ∧ t.pending = rest := by
  refine run_queue (fun _ q h => h.withPending q) (fun _ h => h.loaded.trans hl)
    (fun c hc t ht => ?_) n rfl hp
  obtain ⟨u, hu, htu, hpu⟩ :=
    sessionCommand_betweenCycles (hcs c hc) (by rwa [ht.mode, ht.wake])
  exact ⟨u, hu, ht.trans htu, hpu⟩

/-! ## The key wait -/

/-- Settles O55: the wait is entered, and `PC` advanced, by one update. -/
theorem keyWaitIsEntered : Obligations.KeyWaitIsEntered := fun x =>
  ⟨decode_encode (.ldKey x), fun _ => ⟨_, rfl, rfl, rfl, rfl, fun _ => rfl, rfl⟩⟩

/-- A key code fits a byte. -/
theorem keyCode_toByte_toNat (k : KeyCode) : (BitVec.ofNat 8 k.val).toNat = k.val :=
  (BitVec.toNat_ofNat _ _).trans (Nat.mod_eq_of_lt (by omega))

/-- Settles O9: the two outcomes of a cycle in a wait, `emulateCycle_waiting_some` and
`emulateCycle_waiting_none`. -/
theorem waitingCycleTakesTheLatchedKey : Obligations.WaitingCycleTakesTheLatchedKey := by
  refine ⟨fun s x k hl hm hw => ?_, fun s x hl hm hw => ?_⟩
  · refine ⟨_, (runCommand_session _ s hl).trans (emulateCycle_waiting_some s x k hm hw), ?_,
      fun r hr => ?_, fun _ => rfl, rfl⟩
    · rw [State.setV_getV_same, keyCode_toByte_toNat]
    · rw [State.setV_getV, if_neg (mt List.mem_singleton.mpr hr)]
      rfl
  · exact (runCommand_session _ s hl).trans (emulateCycle_waiting_none s x hm hw)

/-- Settles O27: the first `KeyDown` latches its key; until the next cycle the latch is full, so the commands
between change inputs only; that cycle is one of O9. -/
theorem keyWaitEndsWithItsFirstKey : Obligations.KeyWaitEndsWithItsFirstKey := by
  intro s x code cs hl hm hw hcs
  obtain ⟨hdown, hpd⟩ := cmdKeyDown_latches (s := s.withPending (cs ++ [.emulateCycle])) hm hw code
  have hfull : ∀ k, latchKey (.waitingForKey x) (some code) k = some code := fun _ => rfl
  obtain ⟨t, hrun, hbetween, hpt⟩ := run_betweenCycles (hdown.loaded.trans hl)
    (by rwa [hdown.mode.trans hm, hdown.wake]) hcs 1 hpd
  have ht : InputsOnly { s with wake := some code } (t.withPending []) :=
    (hdown.trans hbetween).withPending []
  obtain ⟨hcycle, -⟩ := waitingCycleTakesTheLatchedKey
  obtain ⟨u, hu, hkey, hregs, -, hframe⟩ :=
    hcycle (t.withPending []) x code (ht.loaded.trans hl) (ht.mode.trans hm) ht.wake
  refine ⟨u, ?_, by rw [hframe], by rw [hframe], hkey, fun r hr => ?_, ?_⟩
  · calc core.run (cs.length + 2) (s.withPending (.keyDown code.val :: (cs ++ [.emulateCycle])))
      _ = core.run (cs.length + 1) (cmdKeyDown code.val (s.withPending (cs ++ [.emulateCycle]))) :=
        run_succ _ _ _ (step_queued _ (c := .keyDown _) hl rfl)
      _ = core.run 1 t := hrun
      _ = .next u := run_succ 0 t u ((step_cons t _ [] hpt).trans hu)
  · exact (hregs r hr).trans (ht.getV r)
  · rw [hframe, ht, hw]
    rfl

/-- A key wait goes on from `s` to `t`: inputs only have changed, and no key has been pressed. -/
structure WaitGoesOn (s t : State) : Prop where
  inputs : InputsOnly s t
  released : ∀ k, t.key k = true → s.key k = true

theorem WaitGoesOn.trans {s t u : State} (hst : WaitGoesOn s t) (htu : WaitGoesOn t u) :
    WaitGoesOn s u :=
  ⟨hst.inputs.trans htu.inputs, fun k hk => hst.released k (htu.released k hk)⟩

theorem State.beginCommand_waitGoesOn (s : State) : WaitGoesOn s s.beginCommand :=
  ⟨s.beginCommand_inputsOnly, fun _ => id⟩

section

variable {s : State} {x : Reg} (hm : s.mode = .waitingForKey x) (hw : s.wake = none)

include hm hw

/-- A wait with no key latched goes on under every command but `Reset`, `Load` and a `KeyDown` of a code 0..15
(R96, R109, R111). -/
theorem sessionCommand_waitGoesOn {c : Command} (hc : c.latchesNoKey = true) :
    ∃ t, sessionCommand c s = .next t ∧ WaitGoesOn s t ∧ t.pending = s.pending := by
  cases c with
  | emulateCycle | singleStep =>
    exact ⟨_, emulateCycle_waiting_none s x hm hw, s.beginCommand_waitGoesOn, rfl⟩
  | tick =>
    obtain ⟨hframe, hp⟩ := cmdTick_inputsOnly s
    exact ⟨_, rfl, ⟨hframe, fun k => (cmdTick_key s k).symm.trans⟩, hp⟩
  | keyDown code =>
    refine ⟨_, rfl, ?_⟩
    rw [cmdKeyDown_invalid s (of_decide_eq_true hc)]
    exact ⟨⟨rfl, fun _ => id⟩, rfl⟩
  | keyUp code =>
    obtain ⟨hframe, hp⟩ := cmdKeyUp_inputsOnly s code
    exact ⟨_, rfl, ⟨hframe, cmdKeyUp_key s code⟩, hp⟩
  | dumpDisplay | dumpMemory | dumpCpu => exact ⟨_, rfl, ⟨rfl, fun _ => id⟩, rfl⟩
  | load | reset => cases hc

/-- With nothing queued a wait with no key latched goes on for any number of cycles (R96, R131). -/
theorem run_waitGoesOn (hl : s.loaded = true) (hp : s.pending = []) (n : Nat) :
    ∃ t, core.run n s = .next t ∧ WaitGoesOn s t ∧ t.pending = [] := by
  induction n generalizing s with
  | zero => exact ⟨s, rfl, ⟨rfl, fun _ => id⟩, hp⟩
  | succ n ih =>
    have hstep := (step_eq_emulateCycle hl hp).trans (emulateCycle_waiting_none s x hm hw)
    obtain ⟨t, hrun, ht, hpt⟩ := ih (s := s.beginCommand) hm hw hl hp
    exact ⟨t, (run_succ n s _ hstep).trans hrun, s.beginCommand_waitGoesOn.trans ht, hpt⟩

end

/-- Settles O28: each queued command lets the wait go on, and so do the cycles after them. -/
theorem keyWaitLastsWithoutAKeyEvent : Obligations.KeyWaitLastsWithoutAKeyEvent := by
  intro s x cs n hl hm hw hcs
  obtain ⟨t, hrun, ht, hpt⟩ := run_queue (P := WaitGoesOn s) (cs := cs) (rest := [])
    (fun _ q h => ⟨h.inputs.withPending q, h.released⟩) (fun _ h => h.inputs.loaded.trans hl)
    (fun c hc t ht => by
      have hin := ht.inputs
      obtain ⟨u, hu, htu, hpu⟩ :=
        sessionCommand_waitGoesOn (hin.mode.trans hm) (hin.wake.trans hw) (hcs c hc)
      exact ⟨u, hu, ht.trans htu, hpu⟩)
    n (s := s.withPending cs) ⟨rfl, fun _ => id⟩ (List.append_nil cs).symm
  have hin := ht.inputs
  obtain ⟨u, hu, htu, hpu⟩ :=
    run_waitGoesOn (hin.mode.trans hm) (hin.wake.trans hw) (hin.loaded.trans hl) hpt n
  obtain ⟨hframe, hkeys⟩ := ht.trans htu
  exact ⟨u, hrun.trans hu, hframe.mode.trans hm, hframe.wake.trans hw, hkeys,
    hpu ▸ hframe⟩

/-! ## The key skips -/

theorem lowNibble_val (b : Byte) : (lowNibble b).val = b.toNat % 16 := by
  simp [lowNibble]

/-- A key code names its key; under the policy `lowNibble` every byte names that of its low nibble (R93). -/
theorem keyOperand_eq_ok {p : Params} {b : Byte} {k : KeyCode}
    (h : b.toNat = k.val ∨ (p.keyIndexPolicy = .lowNibble ∧ b.toNat % 16 = k.val)) :
    keyOperand p b = .ok k := by
  have hk : lowNibble b = k := Fin.ext ((lowNibble_val b).trans (by omega))
  unfold keyOperand
  split
  · next hb =>
    obtain ⟨hp, -⟩ := h.resolve_left (by omega)
    rw [hp, hk]
  · rw [hk]

/-- Under the policy `halt` a value above 15 names no key (R93). -/
theorem keyOperand_eq_error {p : Params} {b : Byte} (hb : 15 < b.toNat)
    (hp : p.keyIndexPolicy = .halt) : keyOperand p b = .error (.keyIndexOutOfRange b) := by
  rw [keyOperand, if_pos hb, hp]

/-- Settles O54: the operand names a key (`keyOperand_eq_ok`), which the skip tests, or none
(`keyOperand_eq_error`), and the instruction halts. -/
theorem keySkipsTestTheNamedKey : Obligations.KeySkipsTestTheNamedKey := by
  refine fun x => ⟨decode_encode (.skp x), decode_encode (.sknp x), fun s k h => ?_, fun s hv hp => ?_⟩
  · have hk := keyOperand_eq_ok h
    have hskp : exec (.skp x) s = .next (s.skipIf (s.key k)) := by rw [exec_skp, hk]; rfl
    have hsknp : exec (.sknp x) s = .next (s.skipIf (!s.key k)) := by rw [exec_sknp, hk]; rfl
    refine ⟨⟨_, hskp, s.skipIf_pc _, s.skipIf_onlyPcChanges _⟩,
      ⟨_, hsknp, ?_, s.skipIf_onlyPcChanges _⟩⟩
    rw [State.skipIf_pc]
    cases s.key k <;> rfl
  · rw [exec_skp, exec_sknp, keyOperand_eq_error hv hp]
    exact ⟨rfl, rfl⟩

/-! ## The timers -/

/-- Settles O56: `DT` is read into `Vx` as any byte is; each timer is written by one update. -/
theorem timersReadAndWritten : Obligations.TimersReadAndWritten := fun x =>
  ⟨decode_encode (.ldFromDt x), decode_encode (.ldDt x), decode_encode (.ldSt x),
    fun s => ⟨_, rfl, s.setV_getV_same x s.dt, rfl, s.setV_advance_registerFrame x s.dt⟩,
    fun _ => ⟨_, rfl, rfl, rfl, fun _ => rfl, rfl⟩,
    fun _ => ⟨_, rfl, rfl, rfl, rfl, fun _ => rfl, rfl⟩⟩

end Sys2Proof.Machine

/-! # Proofs of the family `60_exceptions.md` -/

namespace Sys2Proof.Machine

/-! ## The key latch -/

/-- Outside a wait, and in one with a key latched, the latch stays (R20). -/
theorem latchKey_keeps {m : Mode} {w : Option KeyCode}
    (h : (∀ x, m ≠ .waitingForKey x) ∨ w ≠ none) (k : KeyCode) : latchKey m w k = w := by
  unfold latchKey
  split
  · next x => exact absurd h (by simp)
  · rfl

/-- In a wait with no key latched the latch takes the key (R20). -/
theorem latchKey_takes {m : Mode} {w : Option KeyCode} {x : Reg} (hm : m = .waitingForKey x)
    (hw : w = none) (k : KeyCode) : latchKey m w k = some k := by
  rw [hm, hw]
  rfl

/-! ## Halts of instructions -/

/-- An instruction that ends in a halt it did not begin in raised it, and left nothing else behind
(R101). -/
theorem exec_halts {i : Instr} {s t : State} {r : HaltReason} (h : exec i s = .next t)
    (ht : t.mode = .halted r) (hs : s.mode ≠ .halted r) : MayHalt i ∧ t = s.halt r := by
  cases exec_effect h with
  | halt hi =>
    cases ht
    exact ⟨hi, rfl⟩
  | wait => cases ht
  | skip => exact absurd ((s.skipIf_mode _).symm.trans ht) hs
  | jump | stack | reg | regAndFlag | regsUpTo | rnd | index | indexAndFlag | clear | draw | store
  | delay | sound => exact absurd ht hs

/-- Settles O10: the halted state is `State.halt` of the state before (`exec_halts`). -/
theorem haltsOfInstructionsArePrecise : Obligations.HaltsOfInstructionsArePrecise :=
  fun _ _ _ _ h ht hs => (exec_halts h ht hs).right

/-- Where success keeps the mode, a halt comes from the failure of the primitive, with its reason. -/
theorem State.eq_error_of_commit_map_halts {α : Type} {s t : State} {r : Except HaltReason α}
    {f : α → State} {e : HaltReason} (h : s.commit (r.map f) = .next t) (ht : t.mode = .halted e)
    (hs : s.mode ≠ .halted e) (hf : ∀ a, r = .ok a → (f a).mode = s.mode) : r = .error e := by
  cases r with
  | ok a =>
    cases h
    exact absurd ((hf a rfl).symm.trans ht) hs
  | error e' =>
    cases h
    cases ht
    rfl

/-! ### What each primitive that can fail fails with -/

section

variable {s : State} {e : HaltReason} {a : Nat}

theorem State.push_of_error {v : Word} (h : s.push v = .error e) :
    e = .stackOverflow ∧ 16 ≤ s.stack.length := by
  rcases Nat.lt_or_ge s.stack.length 16 with hroom | hfull
  · rw [s.push_eq v hroom] at h
    cases h
  · rw [s.push_full v hfull] at h
    cases h
    exact ⟨rfl, hfull⟩

theorem State.pop_of_error (h : s.pop = .error e) : e = .stackUnderflow ∧ s.stack = [] := by
  rcases List.eq_nil_or_concat s.stack with hempty | ⟨older, v, hsnoc⟩
  · rw [s.pop_empty hempty] at h
    cases h
    exact ⟨rfl, hempty⟩
  · rw [s.pop_snoc older v (hsnoc.trans List.concat_eq_append)] at h
    cases h

theorem keyOperand_of_error {p : Params} {b : Byte} (h : keyOperand p b = .error e) :
    e = .keyIndexOutOfRange b ∧ 15 < b.toNat := by
  unfold keyOperand at h
  split at h
  · next hb =>
    split at h <;> cases h
    exact ⟨rfl, hb⟩
  · cases h

/-- A run that leaves memory has a lowest bad address: its start, or the end of memory (R103). -/
theorem lowestBad_max {a n : Nat} (hn : 0 < n) (h : 4096 < a + n) : LowestBad a n (max a 4096) :=
  ⟨4096 - a, by omega, by omega, le_max_right a 4096, fun _ _ => by omega⟩

theorem State.readRun_of_error {n : Nat} (h : s.readRun a n = .error e) :
    ∃ bad, e = .outOfBounds bad ∧ LowestBad a n bad := by
  rw [State.readRun_eq] at h
  split at h
  · cases h
  · next hout =>
    obtain ⟨hn, hend⟩ := not_or.mp hout
    cases h
    exact ⟨_, rfl, lowestBad_max (Nat.pos_of_ne_zero hn) (Nat.not_le.mp hend)⟩

theorem State.writeRun_of_error {bs : List Byte} (h : s.writeRun a bs = .error e) :
    ∃ bad, e = .outOfBounds bad ∧ LowestBad a bs.length bad := by
  have hbs : bs ≠ [] := by
    rintro rfl
    cases h
  rcases State.writeRun_cases s a bs with ⟨t, ht, -⟩ | ⟨he, hend⟩
  · cases ht.symm.trans h
  · cases he.symm.trans h
    exact ⟨_, rfl, lowestBad_max (List.length_pos_of_ne_nil hbs) hend⟩

theorem LowestBad.le {n bad : Nat} (h : LowestBad a n bad) : 4096 ≤ bad := by
  rw [h.eq_max]
  exact le_max_right a 4096

end

/-! ### The reason of each instruction that can halt -/

section

variable {s t : State} {r : HaltReason} (ht : t.mode = .halted r) (hs : s.mode ≠ .halted r)

include ht hs

theorem exec_ret_halts (h : exec .ret s = .next t) : r = .stackUnderflow ∧ s.stack = [] := by
  rw [exec_ret] at h
  exact State.pop_of_error <| State.eq_error_of_commit_map_halts h ht hs fun ⟨_, _⟩ hu =>
    (congrArg State.mode (State.pop_eq_of_ok hu) :)

theorem exec_call_halts {nnn : BitVec 12} (h : exec (.call nnn) s = .next t) :
    r = .stackOverflow ∧ 16 ≤ s.stack.length := by
  rw [exec_call] at h
  exact State.push_of_error <| State.eq_error_of_commit_map_halts h ht hs fun _ hu =>
    (congrArg State.mode (State.push_eq_of_ok hu) :)

theorem exec_keySkip_halts {i : Instr} {x : Reg} (hi : i = .skp x ∨ i = .sknp x)
    (h : exec i s = .next t) : r = .keyIndexOutOfRange (s.getV x) ∧ 15 < (s.getV x).toNat := by
  rcases hi with rfl | rfl
  · rw [exec_skp] at h
    exact keyOperand_of_error <|
      State.eq_error_of_commit_map_halts h ht hs fun _ _ => s.skipIf_mode _
  · rw [exec_sknp] at h
    exact keyOperand_of_error <|
      State.eq_error_of_commit_map_halts h ht hs fun _ _ => s.skipIf_mode _

theorem exec_drw_halts {x y : Reg} {n : BitVec 4} (h : exec (.drw x y n) s = .next t) :
    ∃ bad, r = .outOfBounds bad ∧ LowestBad s.i.toNat n.toNat bad := by
  rw [exec_drw] at h
  exact State.readRun_of_error <| State.eq_error_of_commit_map_halts h ht hs fun _ _ => rfl

theorem exec_stores_halts {i : Instr} {bs : List Byte} (hi : Stores s i bs)
    (h : exec i s = .next t) : ∃ bad, r = .outOfBounds bad ∧ LowestBad s.i.toNat bs.length bad := by
  rw [exec_stores hi] at h
  exact State.writeRun_of_error <| State.eq_error_of_commit_map_halts h ht hs fun _ hu =>
    (congrArg State.mode (State.writeRun_eq_of_ok hu) :)

theorem exec_loadRegs_halts {x : Reg} (h : exec (.loadRegs x) s = .next t) :
    ∃ bad, r = .outOfBounds bad ∧ LowestBad s.i.toNat (x.val + 1) bad := by
  rw [exec_loadRegs] at h
  exact State.readRun_of_error <| State.eq_error_of_commit_map_halts h ht hs fun _ _ =>
    (congrArg State.mode (State.setVs_eq s 0 _) :)

end

/-- Settles O11: the instructions that can halt (`exec_halts`), each with the reason its own failing
primitive gives. -/
theorem eachHaltReasonHasItsInstructions : Obligations.EachHaltReasonHasItsInstructions := by
  intro i s t r h ht hactive
  have hs : s.mode ≠ .halted r := by
    rw [hactive]
    exact nofun
  obtain ⟨hi, -⟩ := exec_halts h ht hs
  rcases hi with rfl | ⟨nnn, rfl⟩ | ⟨x, y, n, rfl⟩ | ⟨x, rfl⟩ | ⟨x, rfl⟩ | ⟨x, rfl⟩ | ⟨x, rfl⟩ |
    ⟨x, rfl⟩
  · obtain ⟨hr, hempty⟩ := exec_ret_halts ht hs h
    exact .inr (.inl ⟨hr, hempty, rfl⟩)
  · obtain ⟨hr, hfull⟩ := exec_call_halts ht hs h
    exact .inl ⟨hr, hfull, nnn, rfl⟩
  · obtain ⟨bad, hr, hbad⟩ := exec_drw_halts ht hs h
    exact .inr (.inr (.inr ⟨bad, hr, hbad.le, .inl ⟨x, y, n, rfl, hbad⟩⟩))
  · obtain ⟨hr, hk⟩ := exec_keySkip_halts ht hs (.inl rfl) h
    exact .inr (.inr (.inl ⟨_, hr, hk, x, rfl, .inl rfl⟩))
  · obtain ⟨hr, hk⟩ := exec_keySkip_halts ht hs (.inr rfl) h
    exact .inr (.inr (.inl ⟨_, hr, hk, x, rfl, .inr rfl⟩))
  · obtain ⟨bad, hr, hbad⟩ := exec_stores_halts ht hs (ldBcd_stores s x) h
    exact .inr (.inr (.inr ⟨bad, hr, hbad.le, .inr (.inl ⟨x, rfl, hbad⟩)⟩))
  · obtain ⟨bad, hr, hbad⟩ := exec_stores_halts ht hs (storeRegs_stores s x) h
    rw [s.regsUpTo_length] at hbad
    exact .inr (.inr (.inr ⟨bad, hr, hbad.le, .inr (.inr (.inl ⟨x, rfl, hbad⟩))⟩))
  · obtain ⟨bad, hr, hbad⟩ := exec_loadRegs_halts ht hs h
    exact .inr (.inr (.inr ⟨bad, hr, hbad.le, .inr (.inr (.inr ⟨x, rfl, hbad⟩))⟩))

/-! ## The halted engine -/

/-- Settles O8: `emulateCycle_halted`, in a session. -/
theorem haltedCycleReturnsTheReasonOnly : Obligations.HaltedCycleReturnsTheReasonOnly :=
  fun s r hl hm => (runCommand_session _ s hl).trans (emulateCycle_halted s r hm)

/-- In a halt every command but `Reset` and `Load` changes inputs only: a cycle nothing, a key its flag, since
no wait latches it (R102; D26). -/
theorem sessionCommand_halted {s : State} {r : HaltReason} (hm : s.mode = .halted r) {c : Command}
    (hc : c.keepsSession = true) :
    ∃ t, sessionCommand c s = .next t ∧ InputsOnly s t ∧ t.pending = s.pending := by
  have hnowait : ∀ x, s.mode ≠ .waitingForKey x := by
    rw [hm]
    exact nofun
  cases c with
  | emulateCycle | singleStep => exact ⟨_, emulateCycle_halted s r hm, rfl, rfl⟩
  | tick | keyDown | keyUp | dumpDisplay | dumpMemory | dumpCpu =>
    exact sessionCommand_betweenCycles rfl (latchKey_keeps (.inl hnowait))
  | load | reset => cases hc

/-- Settles O26: each queued command changes inputs only, so the halt is there for the next one. -/
theorem haltLastsUntilResetOrLoad : Obligations.HaltLastsUntilResetOrLoad := by
  intro s r cs hl hm hcs
  obtain ⟨t, hrun, ht, hpt⟩ := run_queue (P := InputsOnly s) (rest := [])
    (fun _ q h => h.withPending q) (fun _ h => h.loaded.trans hl)
    (fun c hc t ht => by
      obtain ⟨u, hu, htu, hpu⟩ := sessionCommand_halted (ht.mode.trans hm) (hcs c hc)
      exact ⟨u, hu, ht.trans htu, hpu⟩)
    0 (s := s.withPending cs) rfl (List.append_nil cs).symm
  exact ⟨t, hrun, ht.mode.trans hm, hpt ▸ ht⟩

/-! ## Ticks -/

theorem tickTimer_toNat (b : Byte) : (tickTimer b).toNat = b.toNat - 1 := by
  unfold tickTimer
  split <;> bv_omega

/-- What a tick does, both cases of the beep in one (R107, R108). -/
theorem cmdTick_eq (s : State) : cmdTick s =
    { s with dt := tickTimer s.dt, st := tickTimer s.st
             events := if 0 < s.st.toNat then [.beep] else [], result := .ok } := by
  unfold cmdTick
  split <;> rfl

/-- Settles O20: `cmdTick_eq`, each timer as a number by `tickTimer_toNat`. -/
theorem tickStepsBothTimers : Obligations.TickStepsBothTimers := by
  intro s hl
  have hpos : 0 < s.st.toNat ↔ ¬ s.st = 0 := by bv_omega
  have hbeep : (if 0 < s.st.toNat then [Event.beep] else []) = if s.st = 0 then [] else [.beep] :=
    (if_congr hpos rfl rfl).trans (ite_not ..)
  exact ⟨_, (runCommand_session _ s hl).trans (congrArg Host.Outcome.next (cmdTick_eq s)),
    tickTimer_toNat s.dt, tickTimer_toNat s.st, hbeep, rfl, fun _ => rfl, rfl⟩

/-- A queued tick is taken and steps both timers (R25, R107). -/
theorem step_tick {s : State} {rest : List Command} (hl : s.loaded = true)
    (hp : s.pending = .tick :: rest) :
    ∃ t, step s = .next t ∧ t.dt.toNat = s.dt.toNat - 1 ∧ t.st.toNat = s.st.toNat - 1 ∧
      t.events = (if s.st = 0 then [] else [.beep]) ∧
      t = { s with dt := t.dt, st := t.st, pending := rest, events := t.events
                   result := t.result } := by
  obtain ⟨t, ht, hdt, hst, hevents, -, -, hframe⟩ := tickStepsBothTimers (s.withPending rest) hl
  exact ⟨t, (step_cons s _ rest hp).trans ht, hdt, hst, hevents, hframe⟩

/-- `n` queued ticks are taken and step each timer `n` times (R107). -/
theorem run_ticks {s : State} {n : Nat} {rest : List Command} (hl : s.loaded = true)
    (hp : s.pending = List.replicate n .tick ++ rest) :
    ∃ t, core.run n s = .next t ∧ t.dt.toNat = s.dt.toNat - n ∧ t.st.toNat = s.st.toNat - n ∧
      t = { s with dt := t.dt, st := t.st, pending := rest, events := t.events
                   result := t.result } := by
  induction n generalizing s with
  | zero =>
    obtain rfl : s.pending = rest := hp
    exact ⟨s, rfl, rfl, rfl, rfl⟩
  | succ n ih =>
    rw [List.replicate_succ, List.cons_append] at hp
    obtain ⟨u, hstep, hdtu, hstu, -, hu⟩ := step_tick hl hp
    obtain ⟨t, hrun, hdt, hst, ht⟩ := ih (s := u) (by rw [hu]; exact hl) (by rw [hu])
    exact ⟨t, (run_succ n s u hstep).trans hrun, by omega, by omega, ht.trans (by rw [hu])⟩

/-- Settles O21: after `n` ticks (`run_ticks`) the sound timer is not 0 exactly when `n` is below its start,
and then the tick that follows beeps. -/
theorem ticksCountDownAndStayAtZero : Obligations.TicksCountDownAndStayAtZero := by
  intro s n rest hl hp
  obtain ⟨t, hrun, hdt, hst, ht⟩ := run_ticks hl hp
  obtain ⟨u, hstep, -, -, hevents, -⟩ := step_tick (s := t) (by rw [ht]; exact hl) (by rw [ht])
  have hzero : t.st = 0 ↔ ¬ n < s.st.toNat := by bv_omega
  exact ⟨t, u, hrun, hstep, hdt, hst,
    hevents.trans ((if_congr hzero rfl rfl).trans (ite_not ..)), ht⟩

/-! ## Key events -/

/-- Settles O22: the key flags are those of `setKey`, the latch that of `latchKey`. -/
theorem keyDownSetsItsFlagAndLatchesTheFirst : Obligations.KeyDownSetsItsFlagAndLatchesTheFirst :=
  fun s code hl =>
    ⟨_, (runCommand_session _ s hl).trans (congrArg Host.Outcome.next (cmdKeyDown_valid s code)),
      s.beginCommand.setKey_key code (h := true), fun ⟨_, hm⟩ hw => latchKey_takes hm hw code,
      fun hkeep => latchKey_keeps hkeep code, fun _ => rfl, rfl⟩

theorem cmdKeyUp_valid (s : State) (k : KeyCode) :
    cmdKeyUp k.val s = s.beginCommand.setKey k false := by
  rw [cmdKeyUp, dif_pos k.isLt]

theorem cmdKeyUp_invalid (s : State) {code : Nat} (h : 15 < code) :
    cmdKeyUp code s = { s.beginCommand with result := .invalidKeyCode } := by
  rw [cmdKeyUp, dif_neg (by omega)]

/-- Settles O23: a valid `KeyUp` is `setKey`; either command drops a code above 15. -/
theorem keyUpClearsItsFlagAndBadCodesAreDropped :
    Obligations.KeyUpClearsItsFlagAndBadCodesAreDropped := by
  refine ⟨fun s code hl => ?_, fun s code hl hcode => ⟨?_, ?_⟩⟩
  · exact ⟨_, (runCommand_session _ s hl).trans (congrArg Host.Outcome.next (cmdKeyUp_valid s code)),
      s.beginCommand.setKey_key code (h := false), rfl, fun _ => rfl, rfl⟩
  · exact (runCommand_session _ s hl).trans (congrArg Host.Outcome.next (cmdKeyDown_invalid s hcode))
  · exact (runCommand_session _ s hl).trans (congrArg Host.Outcome.next (cmdKeyUp_invalid s hcode))

/-! ## Dumps -/

/-- In a list of rows of `m` elements, element `y * m + x` is element `x` of row `y`. -/
theorem getElem?_flatMap_of_length {α β : Type} {f : α → List β} {m : Nat}
    (hf : ∀ a, (f a).length = m) (l : List α) (y : Nat) {x : Nat} (hx : x < m) :
    (l.flatMap f)[y * m + x]? = l[y]?.bind fun a => (f a)[x]? := by
  induction l generalizing y with
  | nil => rfl
  | cons a l ih =>
    rw [List.flatMap_cons]
    cases y with
    | zero =>
      rw [Nat.zero_mul, Nat.zero_add, List.getElem?_append_left (by rwa [hf])]
      rfl
    | succ y =>
      have hrow : (y + 1) * m + x = m + (y * m + x) := by ring
      rw [hrow, List.getElem?_append_right (by rw [hf]; omega), hf, Nat.add_sub_cancel_left, ih]
      rfl

theorem Display.snapshot_length (d : Display) : d.snapshot.length = 2048 := by
  simp [Display.snapshot, List.length_flatMap]

theorem Display.snapshot_getElem? (d : Display) (x : Fin 64) (y : Fin 32) :
    d.snapshot[y.val * 64 + x.val]? = some (d.pixel x y) := by
  have hrow : ∀ row : BitVec 64, ((List.range 64).map fun k => row.getLsbD k).length = 64 := by simp
  rw [Display.snapshot, getElem?_flatMap_of_length hrow d.toList y x.isLt]
  simp [Display.pixel]

/-- Settles O24: the snapshot's length and its elements. -/
theorem dumpDisplayIsRowMajor : Obligations.DumpDisplayIsRowMajor := fun s hl =>
  ⟨_, runCommand_session _ s hl, s.disp.snapshot_length, s.disp.snapshot_getElem?⟩

/-- Settles O25: a dump is the state it begins in with its own result; the bytes are those of 0 to 4095. -/
theorem dumpsOfMemoryAndCpuReadOnly : Obligations.DumpsOfMemoryAndCpuReadOnly := by
  refine fun s hl => ⟨⟨_, runCommand_session _ s hl, ?_, fun a ha => ?_⟩, runCommand_session _ s hl⟩
  · rw [List.length_map, List.length_range]
  · rw [List.getElem?_map, List.getElem?_range ha]
    rfl

end Sys2Proof.Machine

/-! # Proofs of the family `70_reset_and_hazards.md` -/

namespace Sys2Proof.Machine

/-! ## What `Load` does -/

section

variable {image : List Byte} (s : State)

/-- `Load` has a step in a session and before one (R119, R125). -/
theorem runCommand_load : runCommand (.load image) s = .next (cmdLoad image s) := by
  cases hl : s.loaded with
  | true => exact runCommand_session _ s hl
  | false => exact runCommand_first _ s hl

theorem cmdLoad_of_fits (h : image.length ≤ 3584) : cmdLoad image s = freshSession image s :=
  if_pos h

theorem cmdLoad_of_tooLarge (h : 3584 < image.length) :
    cmdLoad image s = (freshSession [] s).halt .imageTooLarge :=
  if_neg (Nat.not_le.mpr h)

end

/-! ## A session answers every command -/

/-- A next state, in a session, with the parameters of `s`. -/
def AnswersInSession (s : State) (r : Answer) : Prop :=
  ∃ t, r = .next t ∧ t.loaded = true ∧ t.params = s.params

/-- Both outcomes of `Load` are a session (R119, R120). -/
theorem cmdLoad_answersInSession (s : State) (image : List Byte) :
    AnswersInSession s (.next (cmdLoad image s)) := by
  rcases Nat.lt_or_ge 3584 image.length with h | h
  · rw [cmdLoad_of_tooLarge s h]
    exact ⟨_, rfl, rfl, rfl⟩
  · rw [cmdLoad_of_fits s h]
    exact ⟨_, rfl, rfl, rfl⟩

section

variable {s : State} (hl : s.loaded = true)

include hl

theorem InputsOnly.answersInSession {t : State} (h : InputsOnly s t) :
    AnswersInSession s (.next t) :=
  ⟨t, rfl, h.loaded.trans hl, by rw [h]⟩

/-- Every instruction answers (O12), and none writes the session flag or the parameters (O58). -/
theorem exec_answersInSession (i : Instr) : AnswersInSession s (exec i s) := by
  obtain ⟨t, ht⟩ := everyInstructionAnswersANextState i s
  obtain ⟨-, -, hloaded, hparams, -⟩ := eachPieceOfStateHasItsWriters i s t ht
  exact ⟨t, ht, hloaded.trans hl, hparams⟩

/-- A cycle runs an instruction, halts, waits, or ends a wait (R52, R96, R101, R102). -/
theorem emulateCycle_answersInSession : AnswersInSession s (emulateCycle s) := by
  cases hm : s.mode with
  | active =>
    rcases Nat.lt_or_ge (s.pc.toNat + 1) 4096 with hpc | hpc
    · cases hd : decode s.fetchWord with
      | ok i =>
        rw [emulateCycle_exec s i hm hpc hd]
        exact exec_answersInSession (s := s.beginCommand) hl i
      | error e => exact ⟨_, emulateCycle_unknown s e hm hpc hd, hl, rfl⟩
    · exact ⟨_, emulateCycle_fetchOutOfBounds s hm hpc, hl, rfl⟩
  | waitingForKey x =>
    cases hw : s.wake with
    | some k => exact ⟨_, emulateCycle_waiting_some s x k hm hw, hl, rfl⟩
    | none => exact ⟨_, emulateCycle_waiting_none s x hm hw, hl, rfl⟩
  | halted r => exact ⟨_, emulateCycle_halted s r hm, hl, rfl⟩

theorem cmdKeyDown_answersInSession (code : Nat) :
    AnswersInSession s (.next (cmdKeyDown code s)) := by
  unfold cmdKeyDown
  split <;> exact ⟨_, rfl, hl, rfl⟩

theorem sessionCommand_answersInSession (c : Command) :
    AnswersInSession s (sessionCommand c s) := by
  cases c with
  | load image => exact cmdLoad_answersInSession s image
  | emulateCycle | singleStep => exact emulateCycle_answersInSession hl
  | tick => exact (cmdTick_inputsOnly s).1.answersInSession hl
  | keyDown code => exact cmdKeyDown_answersInSession hl code
  | keyUp code => exact (cmdKeyUp_inputsOnly s code).1.answersInSession hl
  | reset => exact ⟨_, rfl, rfl, rfl⟩
  | dumpDisplay | dumpMemory | dumpCpu => exact ⟨_, rfl, hl, rfl⟩

theorem step_answersInSession : AnswersInSession s (step s) := by
  cases hp : s.pending with
  | nil =>
    rw [step_eq_emulateCycle hl hp]
    exact emulateCycle_answersInSession hl
  | cons c rest =>
    rw [step_queued s hl hp]
    exact sessionCommand_answersInSession (s := s.withPending rest) hl c

end

/-- Settles O13: a step in a session is a command of the session (`step_answersInSession`); before one
`Load` opens it and each other command is the fault. -/
theorem onlyCommandsBeforeTheFirstLoadStop : Obligations.OnlyCommandsBeforeTheFirstLoadStop := by
  refine ⟨fun s hl => step_answersInSession hl, fun s image _ => ?_, fun s c hl hc => ?_⟩
  · obtain ⟨t, ht, hloaded, -⟩ := cmdLoad_answersInSession s image
    exact ⟨t, (runCommand_load s).trans ht, hloaded⟩
  · rw [runCommand_first c s hl]
    cases c with
    | load image => exact absurd rfl (hc image)
    | _ => rfl

/-! ## The fresh session of a `Load` or a `Reset` -/

/-- Memory that nothing has written reads as the post-load contents (R48). -/
theorem State.readByte_postLoad {s : State} (hs : s.mem = []) (a : Nat) :
    s.readByte a = postLoadByte s.params s.image a := by
  rw [State.readByte, hs]
  rfl

/-- The image lies above the font (R5), so it reads back from 0x200 on (R48). -/
theorem postLoadByte_image {p : Params} (hp : p.wf = true) {image : List Byte} {k : Nat}
    (hk : k < image.length) : postLoadByte p image (0x200 + k) = image.getD k 0 := by
  have hbase : p.fontBase + 80 ≤ 0x200 := of_decide_eq_true hp
  have hfont : ¬ (p.fontBase ≤ 0x200 + k ∧ 0x200 + k < p.fontBase + 80) := by omega
  have himage : 0x200 ≤ 0x200 + k ∧ 0x200 + k < 0x200 + image.length := by omega
  rw [postLoadByte, if_neg hfont, if_pos himage, Nat.add_sub_cancel_left]

/-- Settles O17: a load that fits is the fresh session, and its memory, which nothing has written, is the
font, the image above it, and zero. -/
theorem loadStartsAFreshSession : Obligations.LoadStartsAFreshSession := by
  intro s image hwf hfits
  refine ⟨_, (runCommand_load s).trans (congrArg Host.Outcome.next (cmdLoad_of_fits s hfits)),
    rfl, rfl, rfl, fun d r hd hr => ?_, fun k hk => ?_, fun a hfont himage => ?_⟩
  · rw [Nat.add_assoc]
    exact State.readByte_font (s := freshSession image s) rfl (by omega)
  · exact (State.readByte_postLoad rfl _).trans (postLoadByte_image hwf hk)
  · exact (State.readByte_postLoad rfl a).trans ((if_neg hfont).trans (if_neg himage))

/-- Settles O18: the halt is taken in the fresh session of the empty image. -/
theorem loadOfATooLargeImageHalts : Obligations.LoadOfATooLargeImageHalts := fun s _ h =>
  ⟨_, (runCommand_load s).trans (congrArg Host.Outcome.next (cmdLoad_of_tooLarge s h)), rfl,
    State.readByte_postLoad rfl⟩

/-- Settles O19: a reset is the fresh session of the session image, which does not look at the mode or the
latch. -/
theorem resetRestoresThePostLoadState : Obligations.ResetRestoresThePostLoadState :=
  ⟨fun s hl => ⟨_, runCommand_session _ s hl, rfl, State.readByte_postLoad rfl⟩,
    fun s m w hl => (runCommand_session .reset { s with mode := m, wake := w } hl).trans
      (runCommand_session .reset s hl).symm⟩

end Sys2Proof.Machine
